-- ==== Sys2Proof/Word.lean ====
section
/-! DEFINITION. Word.lean: the word types of the block (00_scope.md R10, R11; 10_state.md R21 to R29). -/

namespace Sys2Proof

/-- A byte: an 8-bit unsigned value (00_scope.md R11). -/
abbrev Byte := BitVec 8

/-- A 16-bit unsigned register value (10_state.md R21, R23, R24). -/
abbrev Half := BitVec 16

/-- A 32-bit pattern, read as a binary32 number only by whoever wants to (10_state.md R25, R26). -/
abbrev Pattern := BitVec 32

end Sys2Proof
end

