-- ==== Sys2Proof/Syntax.lean ====
section
/-! DEFINITION. Syntax.lean: the six fields (00_scope.md R8) and the twelve commands (30_encoding.md R75), one
constructor for each row of spec/opcode_table.json. -/

namespace Sys2Proof

/-- The six sensor fields, numbered 0 to 5 in this order, the fixed field order (00_scope.md R8). -/
inductive Field
  | motor   -- 0 motor_encoders
  | switch  -- 1 home_switches
  | pot     -- 2 potentiometers
  | diode   -- 3 ref_diode
  | temp    -- 4 temp_sensor
  | imu     -- 5 imu
deriving DecidableEq, Repr

/-- A token of READ_TEXT: a string of ASCII bytes (30_encoding.md R73). -/
abbrev Token := List Byte

/-- A command frame or a response frame: one byte string (30_encoding.md R60). -/
abbrev Frame := List Byte

/-- The five command frame formats (30_encoding.md R69 to R73); `fset` names its field. -/
inductive Format
  | fset (f : Field)
  | fnone
  | fbytes
  | fbyte
  | ftext
deriving DecidableEq, Repr

/-- The twelve commands of 30_encoding.md R75. A setter carries the elements supplied, whose number is the frame's `n`,
so that a wrong number is still a command (30_encoding.md R69). DEDUCED, safe (log entry 15). -/
inductive Instr
  | setMotor (vs : List Half)
  | setSwitch (vs : List Byte)
  | setPot (vs : List Half)
  | setDiode (vs : List Half)
  | setTemp (vs : List Pattern)
  | setImu (vs : List Pattern)
  | pack
  | unpack (d : List Byte)
  | appendByte (b : Byte)
  | readText (ts : List Token)
  | getSensors
  | getPayload
deriving DecidableEq, Repr

end Sys2Proof
end

