-- ==== Sys2Proof/Machine/Fields.lean ====
section
/-! DEFINITION. Machine/Fields.lean: the field table (00_scope.md R8) and the payload lengths and offsets that follow
from it (00_scope.md R13, 30_encoding.md R64, R65). -/

namespace Sys2Proof

/-- The number of a field, which is also its mask bit (00_scope.md R8). -/
def Field.index : Field → Nat
  | .motor => 0
  | .switch => 1
  | .pot => 2
  | .diode => 3
  | .temp => 4
  | .imu => 5

/-- `COUNT(f)`: the number of elements of a field (00_scope.md R8). -/
def Field.count : Field → Nat
  | .motor => 4
  | .switch => 4
  | .pot => 2
  | .diode => 1
  | .temp => 1
  | .imu => 6

/-- `EW(f)`: the bytes of one element (00_scope.md R8). -/
def Field.elemWidth : Field → Nat
  | .motor => 2
  | .switch => 1
  | .pot => 2
  | .diode => 2
  | .temp => 4
  | .imu => 4

/-- `W(f) = COUNT(f) * EW(f)` (00_scope.md R8). -/
def Field.width (f : Field) : Nat := f.count * f.elemWidth

/-- The fixed field order (00_scope.md R8). -/
def Field.inOrder : List Field := [.motor, .switch, .pot, .diode, .temp, .imu]

/-- The fields present in a mask, in the fixed field order (30_encoding.md R63). Bits 7:6 select no field (R67). -/
def presentFields (m : Byte) : List Field := Field.inOrder.filter fun f => m.getLsbD f.index

/-- `Req(m)`: the payload bytes that mask `m` implies, its own byte included (00_scope.md R13). -/
def req (m : Byte) : Nat := 1 + ((presentFields m).map Field.width).sum

/-- The start offset of field `f` in a payload with mask `m` (30_encoding.md R65). -/
def fieldOffset (m : Byte) (f : Field) : Nat :=
  1 + (((presentFields m).filter fun g => decide (g.index < f.index)).map Field.width).sum

end Sys2Proof
end

