-- ==== Sys2Proof/Machine/Operands.lean ====
section
/-! DEFINITION. Machine/Operands.lean: byte strings and byte order (00_scope.md R11, 20_memory.md R43), operand assembly
(30_encoding.md R78) and the integer tokens of READ_TEXT (44_text_decode.md R141). -/

namespace Sys2Proof

/-- `le_bytes(v, n)`: the `n` bytes of `v`, least significant first (00_scope.md R11). -/
def leBytes : Nat → Nat → List Byte
  | _, 0 => []
  | v, n + 1 => BitVec.ofNat 8 v :: leBytes (v / 256) n

/-- `le_value(s)`: the unsigned value of a byte string, least significant byte first (00_scope.md R11). -/
def leValue : List Byte → Nat
  | [] => 0
  | b :: bs => b.toNat + 256 * leValue bs

/-- The values of `n` adjacent elements of `ew` bytes each at the front of a byte string (00_scope.md R13 StoreField,
30_encoding.md R69). -/
def leElems (ew : Nat) : Nat → List Byte → List Nat
  | 0, _ => []
  | n + 1, bs => leValue (bs.take ew) :: leElems ew n (bs.drop ew)

/-- An ASCII decimal digit, 0x30 to 0x39 (44_text_decode.md R141). -/
def isDigit (b : Byte) : Bool := decide (0x30 ≤ b.toNat) && decide (b.toNat ≤ 0x39)

/-- The base-10 value of a string of digits (44_text_decode.md R141). -/
def digitsValue (t : List Byte) : Nat := t.foldl (fun v b => 10 * v + (b.toNat - 0x30)) 0

/-- `ParseUInt(t, max)` (44_text_decode.md R141): one or more digits and nothing else, with a value of at most `max`. -/
def parseUInt (t : Token) (max : Nat) : Option Nat :=
  if !t.isEmpty && t.all isDigit && decide (digitsValue t ≤ max) then some (digitsValue t) else none

end Sys2Proof
end

