-- ==== Sys2Proof/WellFormed.lean ====
section
/-! DEFINITION. WellFormed.lean: the instructions that some command frame carries. Every count and length of a frame is
one unsigned byte (30_encoding.md R69, R71, R73, R78), so each is at most 255; nothing else is restricted. -/

namespace Sys2Proof

/-- The largest value of a count or length byte (30_encoding.md R69, R71, R73: "0..255"). -/
def maxCount : Nat := 255

/-- What a command frame can carry: `n`, `L`, `T` and every `len_i` fit in one byte (30_encoding.md R78). -/
def Instr.wf : Instr → Bool
  | .setMotor vs => decide (vs.length ≤ maxCount)
  | .setSwitch vs => decide (vs.length ≤ maxCount)
  | .setPot vs => decide (vs.length ≤ maxCount)
  | .setDiode vs => decide (vs.length ≤ maxCount)
  | .setTemp vs => decide (vs.length ≤ maxCount)
  | .setImu vs => decide (vs.length ≤ maxCount)
  | .pack => true
  | .unpack d => decide (d.length ≤ maxCount)
  | .appendByte _ => true
  | .readText ts => decide (ts.length ≤ maxCount) && ts.all fun t => decide (t.length ≤ maxCount)
  | .getSensors => true
  | .getPayload => true

end Sys2Proof
end

