-- ==== Sys2Proof/Decode.lean ====
section
/-! DEFINITION. Decode.lean: command frames (30_encoding.md R68 to R79): the decoder, total on byte strings, then the
encoder, then the frame length of a byte stream, and the host's table words. -/

namespace Sys2Proof

/-! ## The decoder (R74, R75) -/

/-- The format of an opcode byte; `none` for an unassigned one (30_encoding.md R75, R76). -/
def formatOf (op : Byte) : Option Format :=
  match op.toNat with
  | 0x00 => some (.fset .motor)
  | 0x01 => some (.fset .switch)
  | 0x02 => some (.fset .pot)
  | 0x03 => some (.fset .diode)
  | 0x04 => some (.fset .temp)
  | 0x05 => some (.fset .imu)
  | 0x10 => some .fnone
  | 0x11 => some .fbytes
  | 0x12 => some .fbyte
  | 0x13 => some .ftext
  | 0x20 => some .fnone
  | 0x21 => some .fnone
  | _ => none

/-- The operand bytes of an FSET frame (30_encoding.md R69): `n`, then exactly `n` elements of `ew` bytes. -/
def decodeElems (ew : Nat) : List Byte → Option (List Nat)
  | [] => none
  | n :: bs => if bs.length = n.toNat * ew then some (leElems ew n.toNat bs) else none

/-- The operand bytes of an FBYTES frame (30_encoding.md R71): `L`, then exactly `L` bytes. -/
def decodeBuffer : List Byte → Option (List Byte)
  | [] => none
  | l :: d => if d.length = l.toNat then some d else none

/-- `n` length-prefixed tokens that end exactly at the end of the bytes (30_encoding.md R73, R74). -/
def decodeTokens : Nat → List Byte → Option (List Token)
  | 0, [] => some []
  | 0, _ :: _ => none
  | _ + 1, [] => none
  | n + 1, len :: bs =>
    if len.toNat ≤ bs.length then
      (decodeTokens n (bs.drop len.toNat)).map fun ts => bs.take len.toNat :: ts
    else none

/-- The operand bytes of an FTEXT frame (30_encoding.md R73): `T`, then the tokens. -/
def decodeText : List Byte → Option (List Token)
  | [] => none
  | t :: bs => decodeTokens t.toNat bs

/-- The operand bytes of an FNONE frame (30_encoding.md R70): none. -/
def decodeNone (i : Instr) : List Byte → Option Instr
  | [] => some i
  | _ :: _ => none

/-- The operand byte of an FBYTE frame (30_encoding.md R72): exactly one. -/
def decodeByte : List Byte → Option Byte
  | [b] => some b
  | _ => none

/-- The command a whole request carries; `none` where the request is not well-formed (30_encoding.md R74): it is empty,
its opcode is unassigned, or its length is not its format's. -/
def decodeFrame : Frame → Option Instr
  | [] => none
  | op :: bs =>
    match op.toNat with
    | 0x00 => (decodeElems 2 bs).map fun vs => .setMotor (vs.map (BitVec.ofNat 16))
    | 0x01 => (decodeElems 1 bs).map fun vs => .setSwitch (vs.map (BitVec.ofNat 8))
    | 0x02 => (decodeElems 2 bs).map fun vs => .setPot (vs.map (BitVec.ofNat 16))
    | 0x03 => (decodeElems 2 bs).map fun vs => .setDiode (vs.map (BitVec.ofNat 16))
    | 0x04 => (decodeElems 4 bs).map fun vs => .setTemp (vs.map (BitVec.ofNat 32))
    | 0x05 => (decodeElems 4 bs).map fun vs => .setImu (vs.map (BitVec.ofNat 32))
    | 0x10 => decodeNone .pack bs
    | 0x11 => (decodeBuffer bs).map .unpack
    | 0x12 => (decodeByte bs).map .appendByte
    | 0x13 => (decodeText bs).map .readText
    | 0x20 => decodeNone .getSensors bs
    | 0x21 => decodeNone .getPayload bs
    | _ => none

/-! ## The encoder (R69 to R73) -/

/-- An FSET frame: opcode, element count, the elements little-endian (30_encoding.md R69). -/
def encodeElems (op : Byte) (ew : Nat) (vs : List Nat) : Frame :=
  op :: BitVec.ofNat 8 vs.length :: vs.flatMap fun v => leBytes v ew

/-- One token: its length byte, then its characters (30_encoding.md R73). -/
def encodeToken (t : Token) : List Byte := BitVec.ofNat 8 t.length :: t

/-- The command frame of an instruction (30_encoding.md R69 to R73, R75). -/
def encode : Instr → Frame
  | .setMotor vs => encodeElems 0x00#8 2 (vs.map BitVec.toNat)
  | .setSwitch vs => encodeElems 0x01#8 1 (vs.map BitVec.toNat)
  | .setPot vs => encodeElems 0x02#8 2 (vs.map BitVec.toNat)
  | .setDiode vs => encodeElems 0x03#8 2 (vs.map BitVec.toNat)
  | .setTemp vs => encodeElems 0x04#8 4 (vs.map BitVec.toNat)
  | .setImu vs => encodeElems 0x05#8 4 (vs.map BitVec.toNat)
  | .pack => [0x10#8]
  | .unpack d => 0x11#8 :: BitVec.ofNat 8 d.length :: d
  | .appendByte b => [0x12#8, b]
  | .readText ts => 0x13#8 :: BitVec.ofNat 8 ts.length :: ts.flatMap encodeToken
  | .getSensors => [0x20#8]
  | .getPayload => [0x21#8]

/-! ## A byte stream (R79) -/

/-- The bytes that `n` length-prefixed tokens take (30_encoding.md R79). -/
def tokenWalk : Nat → List Byte → Option Nat
  | 0, _ => some 0
  | _ + 1, [] => none
  | n + 1, len :: bs => (tokenWalk n (bs.drop len.toNat)).map fun k => 1 + len.toNat + k

/-- The length of the frame at the front of a byte stream (30_encoding.md R79); `none` where the opcode is unassigned or
the stream ends before the bytes that tell the length. -/
def frameLength : List Byte → Option Nat
  | [] => none
  | op :: bs =>
    match formatOf op with
    | none => none
    | some .fnone => some 1
    | some .fbyte => some 2
    | some (.fset f) => bs.head?.map fun n => 2 + n.toNat * f.elemWidth
    | some .fbytes => bs.head?.map fun l => 2 + l.toNat
    | some .ftext =>
      match bs with
      | [] => none
      | t :: r => (tokenWalk t.toNat r).map fun k => 2 + k

/-- The command at the front of a byte stream and the bytes after its frame (30_encoding.md R79). -/
def decodeStream (bs : List Byte) : Option (Instr × List Byte) :=
  match frameLength bs with
  | none => none
  | some n =>
    if (bs.take n).length = n then (decodeFrame (bs.take n)).map fun i => (i, bs.drop n) else none

/-! ## Pseudo-instructions (R81) -/

/-- `CURSOR_RESET`: `APPEND_BYTE P_SENTINEL` (30_encoding.md R81). -/
def cursorReset (sentinel : Byte) : Instr := .appendByte sentinel

/-- `DISCARD_PENDING`: `PACK` with its result ignored (30_encoding.md R81). -/
def discardPending : Instr := .pack

/-! ## The host's table words -/

/-- The longest frame: READ_TEXT with 255 tokens of 255 bytes (30_encoding.md R73). -/
def maxFrameLength : Nat := 2 + 255 * (1 + 255)

/-- The bytes of a table word, the least significant first, then zero bytes up to the longest frame. -/
def tableBytes (nbits w : Nat) : List Byte :=
  leBytes w ((nbits + 7) / 8) ++ List.replicate (maxFrameLength - (nbits + 7) / 8) 0#8

/-- The frame of a table word: as many of its bytes as its format takes; where the opcode is unassigned, the word's own
bytes. -/
def tableFrame (nbits w : Nat) : Frame :=
  match frameLength (tableBytes nbits w) with
  | some n => (tableBytes nbits w).take n
  | none => leBytes w ((nbits + 7) / 8)

/-- The instruction the decoder reads from a table word. -/
def decodeTableWord (nbits w : Nat) : Option Instr := decodeFrame (tableFrame nbits w)

end Sys2Proof
end

