-- ==== Sys2Proof/Config.lean ====
section
/-! DEFINITION. Config.lean: what this hardware fixes, and the free values: constants with no body, of which nothing
can be proved but their type. -/

namespace Sys2Proof.Config

/-- `CAP` of this hardware (00_scope.md R6: "This hardware takes `CAP = 64`"). The machine reads the capacity from its
parameters (`Machine.Params`); this is the value they have at reset. -/
def cap : Nat := 64

/-- `P_SENTINEL` (00_scope.md R7), which the spec leaves OPEN: a free value. DESIGN CHOICE, safe
(log entry 2). -/
opaque sentinel : Byte

/-- What `PBUF[offset]` holds after the reset number `epoch` until something is stored there (10_state.md R35: "each byte
an arbitrary value, a draw the model does not fix"): a free value for every reset and every offset.
DESIGN CHOICE (log entry 3), safe for a claim about one of the blocks. It depends on nothing else, so that two blocks reset
equally often hold the same unwritten bytes, which the spec leaves open (00_scope.md R9, 60_exceptions.md R212): DESIGN CHOICE,
unsafe for a claim that compares two (log entry 17). -/
opaque pbufDraw (epoch offset : Nat) : Byte

end Sys2Proof.Config
end

