-- ==== Sys2Proof/Machine/State.lean ====
section
/-! DEFINITION. Machine/State.lean: the state of one instance (10_state.md R20), its reset value (R35), and the ways a
step could stop. -/

namespace Sys2Proof.Machine

/-- The ways the machine could stop with a fault: none. The block has no trap mechanism: an error is a status in the
response to its command, which changes nothing else (60_exceptions.md R201, R209), and no access falls outside the buffer
(20_memory.md R42). DEDUCED, safe (log entry 14). -/
inductive Fault
deriving DecidableEq, Repr

/-- The ways a step could be refused. -/
inductive Refusal
  /-- Raised by an arm of `exec` whose instruction has no meaning yet; safe. No arm raises it: every command has its
  meaning. -/
  | notModelled (mnemonic : String)
deriving DecidableEq, Repr

/-- SensorSnapshot: the fifteen field registers (10_state.md R21 to R26). -/
structure Snapshot where
  /-- `ENC[0..3]` (R21). -/
  enc : Vector Half 4
  /-- `SW[0..3]`, each byte verbatim (R22). -/
  sw : Vector Byte 4
  /-- `POT[0..1]` (R23). -/
  pot : Vector Half 2
  /-- `DIODE` (R24). -/
  diode : Half
  /-- `TEMP`, a binary32 pattern (R25). -/
  temp : Pattern
  /-- `IMU[0..5]`, binary32 patterns (R26). -/
  imu : Vector Pattern 6
deriving DecidableEq, Repr

/-- The command-port state (10_state.md R32). While busy it holds the accepted request until its response is
delivered. -/
inductive Port
  | idle
  | busy (frame : Frame)
deriving DecidableEq, Repr

/-- What the host does at the port, in the order it does it (70_reset_and_hazards.md R251). DESIGN CHOICE, safe
(log entry 4). -/
inductive HostEvent
  /-- The host offers a request; the port accepts it when idle (30_encoding.md R61). -/
  | request (frame : Frame)
  /-- The host waits for the response outstanding (70_reset_and_hazards.md R245). -/
  | awaitResponse
  /-- Reset is asserted (70_reset_and_hazards.md R240, R241). -/
  | reset
deriving DecidableEq, Repr

/-- The parameters of an instance (00_scope.md R6, R7), fixed for its life (10_state.md R33). DESIGN CHOICE, safe: they are held
beside the state so that every claim is about every capacity and every sentinel (log entry 1). -/
structure Params where
  /-- `CAP`, the capacity of the PayloadBuffer in bytes (R6). -/
  cap : Nat
  /-- `P_SENTINEL` (R7). -/
  sentinel : Byte
deriving DecidableEq, Repr

/-- One instance. The first four fields and `port` are the block's state (10_state.md R20); the others are the model's
own: the parameters, the number of resets so far (which draw the unwritten buffer bytes are), and the two sides of the
command port, what the host has still to do and the responses delivered so far, oldest first. -/
structure State where
  regs : Snapshot
  /-- `MASK`, the PresenceMask (R27), all eight bits of it. DEDUCED, safe (log entry 12). -/
  mask : Byte
  /-- `CURSOR`, held in 8 bits (R29). DEDUCED, safe (log entry 11). -/
  cursor : Byte
  /-- `PBUF` (R31): the bytes stored since reset, by offset. -/
  pbuf : List Host.Cell
  port : Port
  params : Params
  epoch : Nat
  host : List HostEvent
  responses : List Frame
deriving DecidableEq, Repr

/-- Every field register at zero (10_state.md R35). -/
def Snapshot.zero : Snapshot where
  enc := #v[0, 0, 0, 0]
  sw := #v[0, 0, 0, 0]
  pot := #v[0, 0]
  diode := 0
  temp := 0
  imu := #v[0, 0, 0, 0, 0, 0]

/-- The machine right after reset (10_state.md R35), with nothing asked of it yet. The model's own fields
start as log entry 10 says (DESIGN CHOICE, unsafe). -/
def State.reset : State where
  regs := Snapshot.zero
  mask := 0
  cursor := 0
  pbuf := []
  port := .idle
  params := { cap := Config.cap, sentinel := Config.sentinel }
  epoch := 0
  host := []
  responses := []

end Sys2Proof.Machine
end

