-- ==== Sys2Proof/Machine/Ops.lean ====
section
/-! DEFINITION. Machine/Ops.lean: the operations the commands share: the field registers (00_scope.md R13), the
PayloadBuffer (R12, 20_memory.md R40 to R42), all-or-nothing execution with its responses (00_scope.md R14,
30_encoding.md R77, 60_exceptions.md R200, R201) and reset (70_reset_and_hazards.md R240). -/

namespace Sys2Proof.Machine

/-! ## State updates -/

/-- The field registers replaced. -/
def State.setRegs (s : State) (r : Snapshot) : State := { s with regs := r }

/-- `CURSOR <- c` (00_scope.md R12). -/
def State.setCursor (s : State) (c : Byte) : State := { s with cursor := c }

/-- The buffer replaced. -/
def State.setPbuf (s : State) (m : List Host.Cell) : State := { s with pbuf := m }

/-- What the host has still to do replaced. -/
def State.setHost (s : State) (events : List HostEvent) : State := { s with host := events }

/-- Acceptance of a request, which makes the port busy (30_encoding.md R61); `rest` is what the host does after it. -/
def State.accept (s : State) (f : Frame) (rest : List HostEvent) : State :=
  { s with port := .busy f, host := rest }

/-! ## Field registers -/

/-- `Elem(f, j)`, read as an unsigned value (00_scope.md R13). -/
def Snapshot.elem (r : Snapshot) (f : Field) (j : Nat) : Nat :=
  match f with
  | .motor => (r.enc[j]?.getD 0).toNat
  | .switch => (r.sw[j]?.getD 0).toNat
  | .pot => (r.pot[j]?.getD 0).toNat
  | .diode => r.diode.toNat
  | .temp => r.temp.toNat
  | .imu => (r.imu[j]?.getD 0).toNat

/-- `Elem(f, j) <- v` (00_scope.md R13). -/
def Snapshot.setElem (r : Snapshot) (f : Field) (j v : Nat) : Snapshot :=
  match f with
  | .motor => { r with enc := r.enc.setIfInBounds j (BitVec.ofNat 16 v) }
  | .switch => { r with sw := r.sw.setIfInBounds j (BitVec.ofNat 8 v) }
  | .pot => { r with pot := r.pot.setIfInBounds j (BitVec.ofNat 16 v) }
  | .diode => { r with diode := BitVec.ofNat 16 v }
  | .temp => { r with temp := BitVec.ofNat 32 v }
  | .imu => { r with imu := r.imu.setIfInBounds j (BitVec.ofNat 32 v) }

/-- The values of a list stored into the elements of `f` from element `j` on. -/
def Snapshot.storeElems (f : Field) : Nat → List Nat → Snapshot → Snapshot
  | _, [], r => r
  | j, v :: vs, r => Snapshot.storeElems f (j + 1) vs (r.setElem f j v)

/-- `FieldBytes(f)` (00_scope.md R13): the elements in order, each little-endian. -/
def Snapshot.fieldBytes (r : Snapshot) (f : Field) : List Byte :=
  (List.range f.count).flatMap fun j => leBytes (r.elem f j) f.elemWidth

/-- `StoreField(f, s)` (00_scope.md R13). -/
def Snapshot.storeField (r : Snapshot) (f : Field) (s : List Byte) : Snapshot :=
  Snapshot.storeElems f 0 (leElems f.elemWidth f.count s) r

/-- The boolean reading of a switch byte, `SW[j] != 0` (10_state.md R22); no command uses it. -/
def Snapshot.switchOn (r : Snapshot) (j : Nat) : Bool := r.elem .switch j != 0

/-- The payload that mask `m` makes of the field registers (30_encoding.md R63): the mask byte, then the bytes of each
present field, adjacent and in the fixed field order. -/
def payload (m : Byte) (r : Snapshot) : List Byte := m :: (presentFields m).flatMap r.fieldBytes

/-! ## PayloadBuffer -/

/-- The PayloadBuffer as data: the bytes stored since reset, by rising offset. -/
abbrev Memory := List Host.Cell

/-- The canonical form: offsets strictly rising. A byte that is not listed has not been stored since reset, which no
listed byte says of itself. DESIGN CHOICE, safe (log entry 3). -/
abbrev Memory.wf (m : Memory) : Prop := m.Pairwise fun a b => a.1 < b.1

/-- The byte stored at an offset since reset, if any. -/
def Memory.read : Memory → Nat → Option Byte
  | [], _ => none
  | (a, v) :: m, x => if a = x then some v else Memory.read m x

/-- One byte stored, in the canonical form. -/
def Memory.write : Memory → Nat → Byte → Memory
  | [], x, b => [(x, b)]
  | (a, v) :: m, x, b =>
    if x < a then (x, b) :: (a, v) :: m
    else if x = a then (x, b) :: m
    else (a, v) :: Memory.write m x b

/-- Bytes stored at rising offsets from `off` on. -/
def Memory.writeBytes : Memory → Nat → List Byte → Memory
  | m, _, [] => m
  | m, off, b :: bs => Memory.writeBytes (m.write off b) (off + 1) bs

/-- `PBUF[offset]`: the byte stored there, else the free value of this reset (10_state.md R34, R35). -/
def State.pbufByte (s : State) (offset : Nat) : Byte :=
  (Memory.read s.pbuf offset).getD (Config.pbufDraw s.epoch offset)

/-- `PBUF[0] ++ ... ++ PBUF[CAP-1]` (45_accessors.md R161). -/
def State.pbufBytes (s : State) : List Byte := (List.range s.params.cap).map s.pbufByte

/-- `PBUF[off .. off+len-1] <- bs`; `none`, with nothing stored, where a byte would fall outside `0 .. CAP-1`
(00_scope.md R12, 20_memory.md R42). DEDUCED, safe: this answer is the commands' capacity check (log entry 16). -/
def State.storePbuf (s : State) (off : Nat) (bs : List Byte) : Option State :=
  if off + bs.length ≤ s.params.cap then some (s.setPbuf (Memory.writeBytes s.pbuf off bs)) else none

/-! ## Errors and responses -/

/-- The five errors with their info (60_exceptions.md R200, 30_encoding.md R77). -/
inductive CmdError
  | outOfCapacity (need : Nat)
  | truncatedInput (need supplied : Nat)
  | malformedToken (index : Nat)
  | invalidFieldCount (expected got : Nat)
  | illegalCommand (op : Byte)
deriving DecidableEq, Repr

/-- The response frame of an error: its status byte, then its info bytes (30_encoding.md R77), each cut to a byte. DEDUCED,
safe (log entry 13). -/
def CmdError.frame : CmdError → Frame
  | .outOfCapacity need => [0x01#8, BitVec.ofNat 8 need]
  | .truncatedInput need supplied => [0x02#8, BitVec.ofNat 8 need, BitVec.ofNat 8 supplied]
  | .malformedToken index => [0x03#8, BitVec.ofNat 8 index]
  | .invalidFieldCount expected got => [0x04#8, BitVec.ofNat 8 expected, BitVec.ofNat 8 got]
  | .illegalCommand op => [0x05#8, op]

/-- The response frame of a command that completed: status OK, then its result bytes (30_encoding.md R77). -/
def okFrame (result : List Byte) : Frame := 0x00#8 :: result

/-- Delivery of a response, which makes the port idle (30_encoding.md R61). -/
def State.respond (s : State) (f : Frame) : State :=
  { s with port := .idle, responses := s.responses ++ [f] }

/-- A command body: it runs on a working copy of the state, and ends with the working copy and its result or raises an
error (00_scope.md R14). -/
abbrev Body := State → Except CmdError (State × List Byte)

/-- `raise E(info)` (00_scope.md R14, 60_exceptions.md R201): the response carries the error, and every state element is
as it was before the command. This is all that taking an exception is on this block (R209); there is no return from one
(R210). -/
def State.raise (s : State) (e : CmdError) : State := s.respond e.frame

/-- All-or-nothing execution (00_scope.md R14): the working copy becomes the state and the response carries OK, or the
error is raised from the state before. -/
def runCommand (body : Body) (s : State) : Host.Outcome State Fault Refusal :=
  .next (match body s with
    | .ok (t, result) => t.respond (okFrame result)
    | .error e => s.raise e)

/-- A request that is not well-formed is rejected: IllegalCommand with its opcode byte, or 0xFF where it is empty
(60_exceptions.md R206). -/
def rejectFrame (f : Frame) (s : State) : Host.Outcome State Fault Refusal :=
  .next (s.raise (.illegalCommand (f.head?.getD 0xFF#8)))

/-! ## Reset -/

/-- Reset (70_reset_and_hazards.md R240, R241): every state element takes its reset value, the buffer a new draw; a
command in progress is dropped with no response. The parameters stay, and what the host has still to do and has received
is the host's. -/
def State.resetBlock (s : State) : State :=
  { State.reset with
    params := s.params, epoch := s.epoch + 1, host := s.host, responses := s.responses }

end Sys2Proof.Machine
end

