-- ==== Sys2Proof/Machine/Accessors.lean ====
section
/-! DEFINITION. Machine/Accessors.lean: GET_SENSORS and GET_PAYLOAD (45_accessors.md R160, R161). -/

namespace Sys2Proof.Machine

/-- GET_SENSORS (45_accessors.md R160): the mask, then every field whatever the mask holds. -/
def execGetSensors (s : State) : Host.Outcome State Fault Refusal :=
  runCommand (fun s => .ok (s, s.mask :: Field.inOrder.flatMap s.regs.fieldBytes)) s

/-- GET_PAYLOAD (45_accessors.md R161). -/
def execGetPayload (s : State) : Host.Outcome State Fault Refusal :=
  runCommand (fun s => .ok (s, s.pbufBytes)) s

end Sys2Proof.Machine
end

