-- ==== Sys2Proof/Machine/Flags.lean ====
section
/-! DEFINITION. Machine/Flags.lean: the PresenceMask bits, the only flags of the block (10_state.md R27, R33). -/

namespace Sys2Proof.Machine

/-- `m & 0x3F`: the mask bits that select a field (30_encoding.md R67). -/
def fieldBits (m : Byte) : Byte := m &&& 0x3F#8

/-- `1 << f` (00_scope.md R10). -/
def fieldBit (f : Field) : Byte := 1#8 <<< f.index

/-- A setter marks its field: `MASK <- MASK | (1 << f)` (40_setters.md R100 to R105). -/
def State.markPresent (s : State) (f : Field) : State := { s with mask := s.mask ||| fieldBit f }

/-- PACK clears the bit of every field of `m` it has written (41_pack.md R110). -/
def State.clearPresent (s : State) (m : Byte) : State := { s with mask := s.mask &&& ~~~m }

/-- UNPACK and READ_TEXT overwrite the whole register (42_unpack.md R125, 44_text_decode.md R146). -/
def State.setMask (s : State) (m : Byte) : State := { s with mask := m }

end Sys2Proof.Machine
end

