-- ==== Sys2Proof/Machine/Pack.lean ====
section
/-! DEFINITION. Machine/Pack.lean: PACK (41_pack.md R110 to R115). -/

namespace Sys2Proof.Machine

/-- The body of PACK (41_pack.md R110). The payload of the mask captured at the start is `Req(m)` bytes long, so that it
does not fit exactly when `Req(m) > CAP`. -/
def packBody : Body := fun s =>
  let m := fieldBits s.mask
  match s.storePbuf 0 (payload m s.regs) with
  | none => .error (.outOfCapacity (req m))
  | some t => .ok (t.clearPresent m, [BitVec.ofNat 8 (req m)])

/-- PACK (41_pack.md R110). -/
def execPack (s : State) : Host.Outcome State Fault Refusal := runCommand packBody s

end Sys2Proof.Machine
end

