-- ==== Sys2Proof/Machine/Setters.lean ====
section
/-! DEFINITION. Machine/Setters.lean: the six field setters (40_setters.md R100 to R106). -/

namespace Sys2Proof.Machine

/-- What the setters share (40_setters.md R106): the element count is checked against the field's arity, the elements are
stored, the field is marked. -/
def setField (f : Field) (vs : List Nat) : Body := fun s =>
  if vs.length = f.count then
    .ok ((s.setRegs (Snapshot.storeElems f 0 vs s.regs)).markPresent f, [])
  else .error (.invalidFieldCount f.count vs.length)

/-- SET_MOTOR (40_setters.md R100). -/
def execSetMotor (vs : List Half) (s : State) : Host.Outcome State Fault Refusal :=
  runCommand (setField .motor (vs.map BitVec.toNat)) s

/-- SET_SWITCH (40_setters.md R101). -/
def execSetSwitch (vs : List Byte) (s : State) : Host.Outcome State Fault Refusal :=
  runCommand (setField .switch (vs.map BitVec.toNat)) s

/-- SET_POT (40_setters.md R102). -/
def execSetPot (vs : List Half) (s : State) : Host.Outcome State Fault Refusal :=
  runCommand (setField .pot (vs.map BitVec.toNat)) s

/-- SET_DIODE (40_setters.md R103). -/
def execSetDiode (vs : List Half) (s : State) : Host.Outcome State Fault Refusal :=
  runCommand (setField .diode (vs.map BitVec.toNat)) s

/-- SET_TEMP (40_setters.md R104). -/
def execSetTemp (vs : List Pattern) (s : State) : Host.Outcome State Fault Refusal :=
  runCommand (setField .temp (vs.map BitVec.toNat)) s

/-- SET_IMU (40_setters.md R105). -/
def execSetImu (vs : List Pattern) (s : State) : Host.Outcome State Fault Refusal :=
  runCommand (setField .imu (vs.map BitVec.toNat)) s

end Sys2Proof.Machine
end

