-- ==== Sys2Proof/Machine/Stream.lean ====
section
/-! DEFINITION. Machine/Stream.lean: APPEND_BYTE (43_stream.md R130 to R133). -/

namespace Sys2Proof.Machine

/-- The body of APPEND_BYTE (43_stream.md R130): the sentinel resets the cursor; any other byte is stored at the cursor,
which does not fit exactly when `CURSOR >= CAP`. -/
def appendBody (b : Byte) : Body := fun s =>
  if b = s.params.sentinel then .ok (s.setCursor 0, [0#8])
  else
    match s.storePbuf s.cursor.toNat [b] with
    | none => .error (.outOfCapacity (s.cursor.toNat + 1))
    | some t => .ok (t.setCursor (s.cursor + 1), [s.cursor + 1])

/-- APPEND_BYTE (43_stream.md R130). -/
def execAppendByte (b : Byte) (s : State) : Host.Outcome State Fault Refusal := runCommand (appendBody b) s

end Sys2Proof.Machine
end

