-- ==== Sys2Proof/Machine/Float.lean ====
section
/-! DEFINITION. Machine/Float.lean: the float tokens of READ_TEXT, their grammar (44_text_decode.md R142) and their value
(R143), and the binary32 reading of a pattern (10_state.md R25). Magnitudes are exact: natural numbers and ratios of
natural numbers; one rounding at the end. The binary32 layout, the rounding and the ASCII codes are those the spec marks as
general knowledge: PRESUMED, unsafe (log entry 7). -/

namespace Sys2Proof

/-! The grammar of 44_text_decode.md R142. -/

/-- An accepted float token: its sign, the digits of its mantissa as one number, how many digits those are, and the power
of ten that multiplies that number (the exponent less the digits after the point). -/
structure Decimal where
  neg : Bool
  mant : Nat
  digits : Nat
  exp : Int
deriving DecidableEq, Repr

/-- `sign?`: true for `'-'` (0x2D), false for `'+'` (0x2B) or no sign; and what follows it. -/
def takeSign : List Byte → Bool × List Byte
  | [] => (false, [])
  | b :: r => if b = 0x2D#8 then (true, r) else if b = 0x2B#8 then (false, r) else (false, b :: r)

/-- `mant`: the digits before the point, the digits after it, and what follows. -/
def takeMant (t : List Byte) : Option (List Byte × List Byte × List Byte) :=
  let whole := t.takeWhile isDigit
  match t.dropWhile isDigit with
  | [] => if whole.isEmpty then none else some (whole, [], [])
  | b :: r =>
    if b = 0x2E#8 then
      let frac := r.takeWhile isDigit
      if whole.isEmpty && frac.isEmpty then none else some (whole, frac, r.dropWhile isDigit)
    else if whole.isEmpty then none else some (whole, [], b :: r)

/-- `exp?` and the end of the token: the exponent, 0 where there is none. -/
def parseExp : List Byte → Option Int
  | [] => some 0
  | b :: r =>
    if b = 0x65#8 || b = 0x45#8 then
      let (neg, ds) := takeSign r
      if !ds.isEmpty && ds.all isDigit then
        some (if neg then -(digitsValue ds : Int) else (digitsValue ds : Int))
      else none
    else none

/-- The grammar of R142: `none` for every string it does not accept. -/
def parseDecimal (t : Token) : Option Decimal :=
  let (neg, body) := takeSign t
  match takeMant body with
  | none => none
  | some (whole, frac, rest) =>
    match parseExp rest with
    | none => none
    | some e => some ⟨neg, digitsValue (whole ++ frac), (whole ++ frac).length, e - (frac.length : Int)⟩

/-! The value of 44_text_decode.md R143. -/

/-- The magnitude of +infinity (10_state.md R25: exponent 255, fraction 0). -/
def infinityMag : Nat := 0x7F800000

/-- `a / b` rounded to the nearest natural number, ties to even. -/
def roundHalfEven (a b : Nat) : Nat :=
  if 2 * (a % b) < b then a / b
  else if b < 2 * (a % b) then a / b + 1
  else a / b + (a / b) % 2

/-- The binary32 magnitude (bits 30:0) of `n / d` rounded to nearest, ties to even (R143). The smallest subnormal is
`2^-149`; `t` is how many binades the spacing of the patterns near `n / d` lies above it, so that `n / d` is
`k * 2^(t - 149)` with `k` at most `2^24`, and the pattern is `t * 2^23 + k`. At `2^128` or more it is infinity. -/
def roundMag (n d : Nat) : Nat :=
  let scaled := n * 2 ^ 149
  let t := Nat.log2 (scaled / d) - 23
  min (t * 2 ^ 23 + roundHalfEven scaled (d * 2 ^ t)) infinityMag

/-- The magnitude of `m * 10^e`, rounded (R143). -/
def decimalMag (m : Nat) (e : Int) : Nat :=
  match e with
  | .ofNat k => roundMag (m * 10 ^ k) 1
  | .negSucc k => roundMag m (10 ^ (k + 1))

/-- The power of ten the conversion computes with. A number of `digits` digits times a power of ten below
`-(digits + 50)` is below `10^-50` and rounds to zero, one times a power above 40 rounds to infinity (or is zero): the
limits change no result, and keep a token such as `"1e999999999"` within reach of evaluation. DEDUCED, safe
(log entry 8). -/
def clampExp (digits : Nat) (e : Int) : Int := max (-((digits : Int) + 50)) (min e 40)

/-- `ParseFloat(t)` (44_text_decode.md R142, R143): the binary32 pattern of the token, `none` for a token outside the
grammar. The sign is the token's, for a zero and an infinity too. -/
def parseFloat (t : Token) : Option Pattern :=
  (parseDecimal t).map fun x =>
    BitVec.ofNat 32 ((if x.neg then 2 ^ 31 else 0) + decimalMag x.mant (clampExp x.digits x.exp))

/-! The binary32 reading of a pattern (10_state.md R25), which no command uses: claims do. -/

/-- Bit 31. -/
def binary32Sign (p : Pattern) : Bool := p.getLsbD 31

/-- Bits 30:23, the biased exponent (bias 127). -/
def binary32Exponent (p : Pattern) : Nat := (p.toNat / 2 ^ 23) % 256

/-- Bits 22:0, the fraction. -/
def binary32Fraction (p : Pattern) : Nat := p.toNat % 2 ^ 23

/-- The magnitude of a finite pattern in units of `2^-149`, the smallest subnormal: a natural number. -/
def binary32Units (p : Pattern) : Nat :=
  if binary32Exponent p = 0 then binary32Fraction p
  else (2 ^ 23 + binary32Fraction p) * 2 ^ (binary32Exponent p - 1)

end Sys2Proof
end

