-- ==== Sys2Proof/Machine/Text.lean ====
section
/-! DEFINITION. Machine/Text.lean: READ_TEXT (44_text_decode.md R140 to R147). -/

namespace Sys2Proof.Machine

/-- `Parse_f(t)`: the value a token denotes as an element of a field (44_text_decode.md R144). -/
def parseElem (f : Field) (t : Token) : Option Nat :=
  match f with
  | .motor => parseUInt t 65535
  | .switch => parseUInt t 255
  | .pot => parseUInt t 65535
  | .diode => parseUInt t 65535
  | .temp => (parseFloat t).map BitVec.toNat
  | .imu => (parseFloat t).map BitVec.toNat

/-- The inner loop of R145: `n` elements of `f` from element `j` on, token number `k` being the first of `ts`. It ends
with the number of the next token, the tokens left and the field registers. -/
def readElems (f : Field) : Nat → Nat → Nat → List Token → Snapshot →
    Except CmdError (Nat × List Token × Snapshot)
  | 0, _, k, ts, r => .ok (k, ts, r)
  | _ + 1, _, k, [], _ => .error (.malformedToken k)
  | n + 1, j, k, t :: ts, r =>
    match parseElem f t with
    | none => .error (.malformedToken k)
    | some v => readElems f n (j + 1) (k + 1) ts (r.setElem f j v)

/-- The outer loop of R145, over the present fields in order. -/
def readFields : List Field → Nat → List Token → Snapshot → Except CmdError Snapshot
  | [], _, _, r => .ok r
  | f :: fs, k, ts, r =>
    match readElems f f.count 0 k ts r with
    | .error e => .error e
    | .ok (k', ts', r') => readFields fs k' ts' r'

/-- The body of READ_TEXT (44_text_decode.md R145). -/
def readTextBody (ts : List Token) : Body := fun s =>
  match ts with
  | [] => .error (.malformedToken 0)
  | t0 :: rest =>
    match parseUInt t0 255 with
    | none => .error (.malformedToken 0)
    | some mv =>
      let m := fieldBits (BitVec.ofNat 8 mv)
      match readFields (presentFields m) 1 rest s.regs with
      | .error e => .error e
      | .ok r => .ok ((s.setRegs r).setMask m, [m])

/-- READ_TEXT (44_text_decode.md R145). -/
def execReadText (ts : List Token) (s : State) : Host.Outcome State Fault Refusal :=
  runCommand (readTextBody ts) s

end Sys2Proof.Machine
end

