-- ==== Sys2Proof/Machine/Unpack.lean ====
section
/-! DEFINITION. Machine/Unpack.lean: UNPACK (42_unpack.md R120 to R126). -/

namespace Sys2Proof.Machine

/-- The fields of a list stored, each from the bytes after the one before it (42_unpack.md R120). -/
def unpackFields : List Field → List Byte → Snapshot → Snapshot
  | [], _, r => r
  | f :: fs, bs, r => unpackFields fs (bs.drop f.width) (r.storeField f (bs.take f.width))

/-- The body of UNPACK (42_unpack.md R120). -/
def unpackBody (d : List Byte) : Body := fun s =>
  match d with
  | [] => .error (.truncatedInput 1 0)
  | d0 :: bs =>
    let m := fieldBits d0
    if d.length < req m then .error (.truncatedInput (req m) d.length)
    else .ok ((s.setRegs (unpackFields (presentFields m) bs s.regs)).setMask m, [m])

/-- UNPACK (42_unpack.md R120). -/
def execUnpack (d : List Byte) (s : State) : Host.Outcome State Fault Refusal := runCommand (unpackBody d) s

end Sys2Proof.Machine
end

