-- ==== Sys2Proof/Machine/Dispatch.lean ====
section
/-! DEFINITION. Machine/Dispatch.lean: one arm for each command (30_encoding.md R75). -/

namespace Sys2Proof.Machine

/-- The execution of a command (30_encoding.md R74, R75). -/
def exec (i : Instr) (s : State) : Host.Outcome State Fault Refusal :=
  match i with
  | .setMotor vs => Sys2Proof.Machine.execSetMotor vs s
  | .setSwitch vs => Sys2Proof.Machine.execSetSwitch vs s
  | .setPot vs => Sys2Proof.Machine.execSetPot vs s
  | .setDiode vs => Sys2Proof.Machine.execSetDiode vs s
  | .setTemp vs => Sys2Proof.Machine.execSetTemp vs s
  | .setImu vs => Sys2Proof.Machine.execSetImu vs s
  | .pack => Sys2Proof.Machine.execPack s
  | .unpack d => Sys2Proof.Machine.execUnpack d s
  | .appendByte b => Sys2Proof.Machine.execAppendByte b s
  | .readText ts => Sys2Proof.Machine.execReadText ts s
  | .getSensors => Sys2Proof.Machine.execGetSensors s
  | .getPayload => Sys2Proof.Machine.execGetPayload s

end Sys2Proof.Machine
end

