-- ==== Sys2Proof/Machine/Port.lean ====
section
/-! DEFINITION. Machine/Port.lean: the command port (30_encoding.md R60, R61, R74; 70_reset_and_hazards.md R240, R241,
R245, R251): what one step of the block does. How the host's side is held: DESIGN CHOICE, safe (log entry 4). -/

namespace Sys2Proof.Machine

/-- A well-formed request is executed by the rule of its opcode, any other rejected (30_encoding.md R74). -/
def runRequest (f : Frame) (s : State) : Host.Outcome State Fault Refusal :=
  match decodeFrame f with
  | some i => exec i s
  | none => rejectFrame f s

/-- What is left of the host's events once a response has arrived: a wait for it is over. -/
def afterResponse : List HostEvent → List HostEvent
  | .awaitResponse :: rest => rest
  | events => events

/-- One step. Reset is taken at any time (70_reset_and_hazards.md R240). A busy port completes its command and delivers
the response; a request offered meanwhile stays with the host (30_encoding.md R61). An idle port accepts a request; with
nothing asked of it, the block waits and changes nothing (70_reset_and_hazards.md R251). -/
def portStep (s : State) : Host.Outcome State Fault Refusal :=
  match s.host with
  | .reset :: rest => .next (s.setHost rest).resetBlock
  | events =>
    match s.port with
    | .busy f => runRequest f (s.setHost (afterResponse events))
    | .idle =>
      match events with
      | .request f :: rest => .next (s.accept f rest)
      | .awaitResponse :: rest => .next (s.setHost rest)
      | _ => .next s

/-- `s` with a request accepted and its completion the next step, by a host that waits for the response. -/
def State.withRequest (s : State) (f : Frame) : State :=
  s.accept f (.awaitResponse :: s.host)

end Sys2Proof.Machine
end

