-- ==== Sys2Proof/Machine/Step.lean ====
section
/-! DEFINITION. Machine/Step.lean: the step, and the placing of a table word where the step takes its command from. -/

namespace Sys2Proof.Machine

/-- One step of the block (`portStep`). -/
def step (s : State) : Host.Outcome State Fault Refusal := portStep s

/-- `s` with the frame of a table word accepted at the port, so that the next step runs it. DESIGN CHOICE, safe
(log entry 5). -/
def State.withFetchWord (s : State) (nbits w : Nat) : State := s.withRequest (tableFrame nbits w)

end Sys2Proof.Machine
end

