-- ==== Sys2Proof/Machine/Assembler.lean ====
section
/-! DEFINITION. Machine/Assembler.lean: the assembler syntax of 30_encoding.md R80 and the pseudo-instructions of R81: from
one line of ASCII text to the command frame it stands for. The block does not read text lines: this is the spec's own
spelling of its programs. What R80 leaves open (blanks, capitals, quotes, the bytes of a string, empty lists, ranges) is
named where it is settled and in log entry 9: DESIGN CHOICE, unsafe for a claim about program text only. -/

namespace Sys2Proof

/-- The ASCII bytes of a word (93_implementation_defined.md G3). -/
def ascii (s : String) : List Byte := s.toList.map fun c => BitVec.ofNat 8 c.toNat

/-! ## Lines, words, operands -/

/-- A space or a tab: R80 does not say what a blank is. DESIGN CHOICE (log entry 9). -/
def isBlank (b : Byte) : Bool := decide (b = 0x20#8) || decide (b = 0x09#8)

/-- The text without the blanks at its two ends. -/
def trimBlanks (t : List Byte) : List Byte := (((t.dropWhile isBlank).reverse).dropWhile isBlank).reverse

/-- The line up to the `;` (0x3B) that starts a comment; one between quotes (0x22) does not. DESIGN CHOICE for the latter
(log entry 9). -/
def stripComment : Bool → List Byte → List Byte
  | _, [] => []
  | quoted, b :: r =>
    if b = 0x22#8 then b :: stripComment (!quoted) r
    else if b = 0x3B#8 && !quoted then []
    else b :: stripComment quoted r

/-- The parts between the commas (0x2C) that are not between quotes. DESIGN CHOICE for a comma between quotes (log
entry 9). -/
def splitCommas : Bool → List Byte → List (List Byte)
  | _, [] => [[]]
  | quoted, b :: r =>
    if b = 0x2C#8 && !quoted then [] :: splitCommas quoted r
    else
      match splitCommas (if b = 0x22#8 then !quoted else quoted) r with
      | [] => [[b]]
      | w :: ws => (b :: w) :: ws

/-- The operands of a line: none where nothing is written. -/
def operandsOf (t : List Byte) : List (List Byte) :=
  if (trimBlanks t).isEmpty then [] else (splitCommas false t).map trimBlanks

/-- Every operand read, or none where one cannot be. -/
def allSome {α β : Type} (p : α → Option β) : List α → Option (List β)
  | [] => some []
  | t :: ts =>
    match p t, allSome p ts with
    | some v, some vs => some (v :: vs)
    | _, _ => none

/-! ## Operand forms -/

/-- A hexadecimal digit, a capital or a small letter. R80 says `0x-hex`, the spec's programs write capitals only, and it does
not speak of small ones: taking both is the model's. DESIGN CHOICE (log entry 9). -/
def hexDigit (b : Byte) : Option Nat :=
  if isDigit b then some (b.toNat - 0x30)
  else if 0x41 ≤ b.toNat ∧ b.toNat ≤ 0x46 then some (b.toNat - 0x37)
  else if 0x61 ≤ b.toNat ∧ b.toNat ≤ 0x66 then some (b.toNat - 0x57)
  else none

/-- What follows `0x`: one or more hexadecimal digits, however many. R80 gives no number of them: DESIGN CHOICE (log
entry 9). -/
def hexValue (t : List Byte) : Option Nat :=
  if t.isEmpty then none else (allSome hexDigit t).map (List.foldl (fun v d => 16 * v + d) 0)

/-- The text after a leading `0x`, if there is one; `0X` is no mark. DESIGN CHOICE (log entry 9). -/
def afterHexMark : List Byte → Option (List Byte)
  | a :: b :: r => if a = 0x30#8 && b = 0x78#8 then some r else none
  | _ => none

/-- An integer operand, decimal or 0x-hex, of at most `max`. R80 gives a decimal no grammar: it is read as 44_text_decode.md
R141 reads one (no sign, leading zeros allowed), and a value over `max` is no operand. DESIGN CHOICE (log entry 9). -/
def intOperand (max : Nat) (t : List Byte) : Option Nat :=
  match afterHexMark t with
  | some h => (hexValue h).filter fun v => decide (v ≤ max)
  | none => parseUInt t max

/-- A float operand: 0x-hex is the raw pattern, a decimal literal is converted by 44_text_decode.md R143. A
hex value of 2^32 or more is no operand: DESIGN CHOICE (log entry 9). -/
def floatOperand (t : List Byte) : Option Pattern :=
  match afterHexMark t with
  | some h => ((hexValue h).filter fun v => decide (v < 2 ^ 32)).map (BitVec.ofNat 32)
  | none => parseFloat t

/-- The text between a given first and last byte. -/
def between (first last : Byte) : List Byte → Option (List Byte)
  | [] => none
  | b :: r =>
    match r.reverse with
    | [] => none
    | c :: m => if b = first && c = last then some m.reverse else none

/-- A token operand: what stands between quotes, any bytes but a quote, none included. R80 says `ASCII strings` and does not
say what becomes of a byte over 0x7F, of a quote inside, or of an empty string: the model takes a byte over 0x7F as it stands
(a token is any bytes in a frame, R140), has no spelling for a quote, and takes the empty string. DESIGN CHOICE (log
entry 9). -/
def stringOperand (t : List Byte) : Option Token :=
  (between 0x22#8 0x22#8 t).filter fun m => m.all fun b => b != 0x22#8

/-! ## One line -/

/-- The command that a line of R80 or a pseudo-instruction of R81 stands for. The number of operands of a setter is not
checked against the field's arity (R80). R80 shows a blank after every mnemonic that has operands and does not say whether
it may be left out: the model needs one, so that `UNPACK[1]` and `READ_TEXT"8"` are no lines. Nor does it say how a mnemonic in
small letters, or an empty list of UNPACK or READ_TEXT, is read: the first is no mnemonic, the second is taken. DESIGN CHOICE
(log entry 9). -/
def assembleInstr (sentinel : Byte) (line : List Byte) : Option Instr :=
  let code := trimBlanks (stripComment false line)
  let name := code.takeWhile fun b => !isBlank b
  let rest := code.dropWhile fun b => !isBlank b
  let ops := operandsOf rest
  let alone (i : Instr) : Option Instr := if ops.isEmpty then some i else none
  let halves := (allSome (intOperand 65535) ops).map (List.map (BitVec.ofNat 16))
  let bytes := (allSome (intOperand 255) ops).map (List.map (BitVec.ofNat 8))
  let floats := allSome floatOperand ops
  if name = ascii "SET_MOTOR" then halves.map .setMotor
  else if name = ascii "SET_SWITCH" then bytes.map .setSwitch
  else if name = ascii "SET_POT" then halves.map .setPot
  else if name = ascii "SET_DIODE" then halves.map .setDiode
  else if name = ascii "SET_TEMP" then floats.map .setTemp
  else if name = ascii "SET_IMU" then floats.map .setImu
  else if name = ascii "PACK" then alone .pack
  else if name = ascii "UNPACK" then
    match between 0x5B#8 0x5D#8 (trimBlanks rest) with
    | none => none
    | some inner => (allSome (intOperand 255) (operandsOf inner)).map fun d => .unpack (d.map (BitVec.ofNat 8))
  else if name = ascii "APPEND_BYTE" then
    match bytes with
    | some [b] => some (.appendByte b)
    | _ => none
  else if name = ascii "READ_TEXT" then (allSome stringOperand ops).map .readText
  else if name = ascii "GET_SENSORS" then alone .getSensors
  else if name = ascii "GET_PAYLOAD" then alone .getPayload
  else if name = ascii "CURSOR_RESET" then alone (cursorReset sentinel)
  else if name = ascii "DISCARD_PENDING" then alone discardPending
  else none

/-- The frame of a line (30_encoding.md R80: "The encoding of each line is the frame of its format"); `none` where the line
is no command, or one that no frame carries. -/
def assemble (sentinel : Byte) (line : List Byte) : Option Frame :=
  ((assembleInstr sentinel line).filter Instr.wf).map encode

end Sys2Proof
end

