-- ==== Sys2Proof/Safety.lean ====
section
/-! DEFINITION. Safety.lean: what a good state is. -/

namespace Sys2Proof.Machine

/-- What holds of the state in every run: `1 <= CAP <= 254` (00_scope.md R6), `CURSOR` in `0..CAP` (10_state.md R29),
`MASK[7:6] = 0` (R28), and a buffer in canonical form with no offset outside `0..CAP-1` (20_memory.md R40, R42). -/
structure State.Inv (s : State) : Prop where
  cap_pos : 1 ≤ s.params.cap
  cap_le : s.params.cap ≤ 254
  cursor_le : s.cursor.toNat ≤ s.params.cap
  mask_reserved : s.mask &&& 0xC0#8 = 0#8
  pbuf_wf : Memory.wf s.pbuf
  pbuf_in_range : ∀ c ∈ s.pbuf, c.1 < s.params.cap

end Sys2Proof.Machine
end

