-- ==== Sys2Proof/Certificates/Slice0/Obligations.lean ====
section
/-! DEFINITION. Certificates/Slice0/Obligations.lean: the statements for the provers, with the few words they are written in
(namespace Claims), which are written from the rules and not from the meanings. -/

namespace Sys2Proof.Claims

open Sys2Proof.Machine

/-- The outcomes of this machine. -/
abbrev Result := Host.Outcome State Fault Refusal

/-- `t` once a response has been delivered: the port is idle, and the response is the last of those delivered. -/
def answer (t : State) (response : Frame) : State :=
  { t with port := .idle, responses := t.responses ++ [response] }

/-- A 16-bit value as its two bytes, the low one first (20_memory.md R45). -/
def le16 (v : Half) : List Byte := [v.extractLsb' 0 8, v.extractLsb' 8 8]

/-- A 32-bit value as its four bytes, the low one first (20_memory.md R45). -/
def le32 (v : Pattern) : List Byte := [v.extractLsb' 0 8, v.extractLsb' 8 8, v.extractLsb' 16 8, v.extractLsb' 24 8]

/-- The wire bytes of each field in the fixed field order (30_encoding.md R63), with its mask bit. -/
def wire (r : Snapshot) : List (Nat × List Byte) :=
  [(0, le16 r.enc[0] ++ le16 r.enc[1] ++ le16 r.enc[2] ++ le16 r.enc[3]),
   (1, [r.sw[0], r.sw[1], r.sw[2], r.sw[3]]),
   (2, le16 r.pot[0] ++ le16 r.pot[1]),
   (3, le16 r.diode),
   (4, le32 r.temp),
   (5, le32 r.imu[0] ++ le32 r.imu[1] ++ le32 r.imu[2] ++ le32 r.imu[3] ++ le32 r.imu[4] ++ le32 r.imu[5])]

/-- The payload of mask `m` (30_encoding.md R63). -/
def payloadOf (m : Byte) (r : Snapshot) : List Byte :=
  m :: (wire r).flatMap fun p => if m.getLsbD p.1 then p.2 else []

/-- `Req(m)` (00_scope.md R13), the widths written out from the field table (R8). -/
def need (m : Byte) : Nat :=
  1 + (if m.getLsbD 0 then 8 else 0) + (if m.getLsbD 1 then 4 else 0) + (if m.getLsbD 2 then 4 else 0) +
    (if m.getLsbD 3 then 2 else 0) + (if m.getLsbD 4 then 4 else 0) + (if m.getLsbD 5 then 24 else 0)

/-- The setter of a field, from element values. -/
def setter (f : Field) (vs : List Nat) : Instr :=
  match f with
  | .motor => .setMotor (vs.map (BitVec.ofNat 16))
  | .switch => .setSwitch (vs.map (BitVec.ofNat 8))
  | .pot => .setPot (vs.map (BitVec.ofNat 16))
  | .diode => .setDiode (vs.map (BitVec.ofNat 16))
  | .temp => .setTemp (vs.map (BitVec.ofNat 32))
  | .imu => .setImu (vs.map (BitVec.ofNat 32))

/-- Commands executed one after another. -/
def execAll : List Instr → State → Result
  | [], s => .next s
  | i :: is, s =>
    match exec i s with
    | .next t => execAll is t
    | o => o

/-- The first event of the host is not a reset. -/
def noReset (s : State) : Prop := ∀ rest, s.host ≠ .reset :: rest

/-- What the host has still to do once a response has arrived: a wait for it is over. -/
def afterWait : List HostEvent → List HostEvent
  | .awaitResponse :: rest => rest
  | events => events

/-! ## Tokens -/

/-- ASCII decimal digits only (44_text_decode.md R141). -/
def Digits (t : List Byte) : Prop := ∀ b ∈ t, 0x30 ≤ b.toNat ∧ b.toNat ≤ 0x39

/-- The base-10 value of digits, each weighed by its place. -/
def placeValue : List Byte → Nat
  | [] => 0
  | b :: t => (b.toNat - 0x30) * 10 ^ t.length + placeValue t

/-- The text of an optional sign: nothing, `+` for `some false`, `-` for `some true`. -/
def signText : Option Bool → List Byte
  | none => []
  | some false => [0x2B#8]
  | some true => [0x2D#8]

/-- The parts of a float token (44_text_decode.md R142): a sign, the digits before the point, whether there is a point, the
digits after it, and an exponent of a letter, a sign and digits. -/
structure FloatParts where
  sign : Option Bool
  whole : List Byte
  point : Bool
  frac : List Byte
  expo : Option (Byte × Option Bool × List Byte)

/-- The parts are those of the grammar of R142. -/
def FloatParts.Legal (p : FloatParts) : Prop :=
  Digits p.whole ∧ Digits p.frac ∧ (p.whole ≠ [] ∨ p.frac ≠ []) ∧ (p.point = false → p.frac = []) ∧
    ∀ letter sg ds, p.expo = some (letter, sg, ds) → (letter = 0x65#8 ∨ letter = 0x45#8) ∧ Digits ds ∧ ds ≠ []

/-- The token that the parts spell. -/
def FloatParts.text (p : FloatParts) : Token :=
  signText p.sign ++ p.whole ++ (if p.point then 0x2E#8 :: p.frac else []) ++
    (match p.expo with
      | none => []
      | some (letter, sg, ds) => letter :: (signText sg ++ ds))

/-- The digits of the mantissa as one number. -/
def FloatParts.mant (p : FloatParts) : Nat := placeValue (p.whole ++ p.frac)

/-- The power of ten that multiplies that number. -/
def FloatParts.power (p : FloatParts) : Int :=
  (match p.expo with
    | none => 0
    | some (_, sg, ds) => if sg = some true then -(placeValue ds : Int) else (placeValue ds : Int)) - (p.frac.length : Int)

/-- How far the magnitude `n / d` lies from that of the finite pattern `q`, in units of `2^-149 / d`. -/
def distance (n d q : Nat) : Nat :=
  ((n : Int) * 2 ^ 149 - (binary32Units (BitVec.ofNat 32 q) : Int) * (d : Int)).natAbs

/-- `mag` is the binary32 magnitude of `n / d` rounded to nearest, ties to even (44_text_decode.md R143). From
`2^128 - 2^103` on, half a spacing below `2^128`, the rounded magnitude is `2^128` or more: infinity. Below, no finite
pattern lies nearer, and where another lies as near the pattern is the even one. -/
def NearestEven (n d mag : Nat) : Prop :=
  if (2 ^ 25 - 1) * 2 ^ 252 * d ≤ n * 2 ^ 149 then mag = 0x7F800000
  else
    mag < 0x7F800000 ∧
      ∀ q, q < 0x7F800000 → distance n d mag ≤ distance n d q ∧
        (distance n d q = distance n d mag → q ≠ mag → mag % 2 = 0)

/-- The field that each token after the mask is an element of, in order (44_text_decode.md R144). -/
def elementFields (m : Byte) : List Field := (presentFields m).flatMap fun f => List.replicate f.count f

/-- The value that a token denotes as an element of a field: the parser and the bound of each row of the table of
44_text_decode.md R144, written out. -/
def tokenValue (f : Field) (t : Token) : Option Nat :=
  match f with
  | .motor => parseUInt t 65535
  | .switch => parseUInt t 255
  | .pot => parseUInt t 65535
  | .diode => parseUInt t 65535
  | .temp => (parseFloat t).map BitVec.toNat
  | .imu => (parseFloat t).map BitVec.toNat

/-- The values that tokens denote as elements of the fields of a list, if each does; tokens left over are not looked at. -/
def denoted : List Field → List Token → Option (List Nat)
  | [], _ => some []
  | _ :: _, [] => none
  | f :: fs, t :: ts =>
    match tokenValue f t, denoted fs ts with
    | some v, some vs => some (v :: vs)
    | _, _ => none

/-- The wire bytes of those values. -/
def elementBytes (fs : List Field) (vs : List Nat) : List Byte :=
  (List.zipWith (fun f v => leBytes v (Field.elemWidth f)) fs vs).flatten

/-- Where element `j` of field `f` stands among the elements of mask `m`. -/
def elementIndex (m : Byte) (f : Field) (j : Nat) : Nat :=
  (((presentFields m).filter fun g => decide (g.index < f.index)).map Field.count).sum + j

/-- `t` is missing from the tokens or is no element of its field. -/
def badToken (f : Field) (t : Option Token) : Prop := t = none ∨ ∃ u, t = some u ∧ tokenValue f u = none

end Sys2Proof.Claims

open Sys2Proof Sys2Proof.Machine Sys2Proof.Claims

/-! ## Encodings -/

/-- 30_encoding.md R69 to R73, R75: every command that a frame can carry is read back from its frame, with every operand at
every value. -/
def Obligations.EncodedCommandsDecodeBack : Prop :=
  ∀ i : Instr, i.wf = true → decodeFrame (encode i) = some i

/-- 30_encoding.md R74, R78: a request that is read as a command is the frame of that command, and of no other. -/
def Obligations.DecodedFramesEncodeBack : Prop :=
  ∀ (f : Frame) (i : Instr), decodeFrame f = some i → i.wf = true ∧ encode i = f

/-- 30_encoding.md R74: a request is well-formed exactly when it is at least one byte long, its opcode is assigned, and its
length is the implied length of its format. -/
def Obligations.FramesAreWellFormedByLength : Prop :=
  ∀ f : Frame, (decodeFrame f).isSome = true ↔ frameLength f = some f.length

/-- 30_encoding.md R79: the length of a frame at the front of a byte stream, format by format, and the command with the bytes
after its frame. -/
def Obligations.StreamFrameLengths : Prop :=
  (∀ op rest, formatOf op = none → frameLength (op :: rest) = none) ∧
  (∀ rest, frameLength (0x10#8 :: rest) = some 1 ∧ frameLength (0x20#8 :: rest) = some 1 ∧
    frameLength (0x21#8 :: rest) = some 1) ∧
  (∀ rest, frameLength (0x12#8 :: rest) = some 2) ∧
  (∀ (f : Field) (n : Byte) rest,
    frameLength (BitVec.ofNat 8 f.index :: n :: rest) = some (2 + n.toNat * f.elemWidth)) ∧
  (∀ (l : Byte) rest, frameLength (0x11#8 :: l :: rest) = some (2 + l.toNat)) ∧
  (∀ (ts : List Token) rest, ts.length ≤ 255 → (∀ t ∈ ts, t.length ≤ 255) →
    frameLength (0x13#8 :: BitVec.ofNat 8 ts.length :: (ts.flatMap (fun t => BitVec.ofNat 8 t.length :: t) ++ rest)) =
      some (2 + (ts.map fun t => 1 + t.length).sum)) ∧
  (∀ (i : Instr) rest, i.wf = true → decodeStream (encode i ++ rest) = some (i, rest))

/-- 30_encoding.md R75, 95_test_vectors.md L1, L2: a frame of each command, written out byte by byte. -/
def Obligations.WrittenFramesDecode : Prop :=
  decodeFrame [0x00, 0x04, 0x01, 0x00, 0x02, 0x00, 0x03, 0x00, 0xFF, 0xFF] = some (.setMotor [1, 2, 3, 0xFFFF]) ∧
  decodeFrame [0x01, 0x04, 0x02, 0x00, 0xFF, 0x01] = some (.setSwitch [0x02, 0x00, 0xFF, 0x01]) ∧
  decodeFrame [0x02, 0x02, 0x34, 0x12, 0xCD, 0xAB] = some (.setPot [0x1234, 0xABCD]) ∧
  decodeFrame [0x03, 0x01, 0x00, 0x08] = some (.setDiode [0x0800]) ∧
  decodeFrame [0x04, 0x01, 0x00, 0x00, 0xBC, 0x41] = some (.setTemp [0x41BC0000]) ∧
  decodeFrame [0x05, 0x02, 0x00, 0x00, 0xC0, 0x3F, 0x00, 0x00, 0x00, 0xC0] = some (.setImu [0x3FC00000, 0xC0000000]) ∧
  decodeFrame [0x10] = some .pack ∧
  decodeFrame [0x11, 0x05, 0x10, 0x00, 0x00, 0xBC, 0x41] = some (.unpack [0x10, 0x00, 0x00, 0xBC, 0x41]) ∧
  decodeFrame [0x12, 0x3F] = some (.appendByte 0x3F) ∧
  decodeFrame [0x13, 0x02, 0x02, 0x31, 0x36, 0x04, 0x32, 0x33, 0x2E, 0x35] =
    some (.readText [[0x31, 0x36], [0x32, 0x33, 0x2E, 0x35]]) ∧
  decodeFrame [0x20] = some .getSensors ∧
  decodeFrame [0x21] = some .getPayload

/-- 30_encoding.md R76: every opcode byte outside the map is illegal, whatever follows it. That the host's wait is then over is
the model's choice (log entry 4). -/
def Obligations.UnassignedOpcodesAreIllegal : Prop :=
  ∀ (op : Byte) (rest : List Byte) (s : State),
    (0x06 ≤ op.toNat ∧ op.toNat ≤ 0x0F) ∨ (0x14 ≤ op.toNat ∧ op.toNat ≤ 0x1F) ∨ 0x22 ≤ op.toNat →
    s.port = .busy (op :: rest) → noReset s →
    step s = .next (answer { s with host := afterWait s.host } [0x05#8, op])

/-! ## Reset and the port -/

/-- 10_state.md R35: the state right after reset. That an unwritten buffer byte is the opaque constant `Config.pbufDraw` of
its reset and offset is the model's rendering of "a draw the model does not fix" (log entry 3). -/
def Obligations.ResetState : Prop :=
  State.reset.regs.enc = #v[0x0000, 0x0000, 0x0000, 0x0000] ∧ State.reset.regs.sw = #v[0x00, 0x00, 0x00, 0x00] ∧
  State.reset.regs.pot = #v[0x0000, 0x0000] ∧ State.reset.regs.diode = 0x0000#16 ∧
  State.reset.regs.temp = 0x00000000#32 ∧ State.reset.regs.imu = #v[0, 0, 0, 0, 0, 0] ∧
  State.reset.mask = 0x00#8 ∧ State.reset.cursor = 0#8 ∧ State.reset.port = .idle ∧ State.reset.params.cap = 64 ∧
  ∀ a, State.reset.pbufByte a = Config.pbufDraw 0 a

/-- 70_reset_and_hazards.md R240, R241: reset is taken at any time, busy or idle; every state element takes its reset value,
the parameters stay, a command in progress has no effect and gets no response. That the buffer bytes are those of a new draw
is the model's rendering (log entry 3). -/
def Obligations.ResetAtAnyTime : Prop :=
  ∀ (s : State) rest, s.host = .reset :: rest →
    ∃ t, step s = .next t ∧ t.regs = Snapshot.zero ∧ t.mask = 0x00#8 ∧ t.cursor = 0#8 ∧ t.port = .idle ∧
      t.params = s.params ∧ t.responses = s.responses ∧ t.host = rest ∧
      ∀ a, t.pbufByte a = Config.pbufDraw (s.epoch + 1) a

/-- 70_reset_and_hazards.md R241: a command discarded by reset leaves nothing: the step is the same whichever command was in
progress, or none. -/
def Obligations.ResetDiscardsTheCommand : Prop :=
  ∀ (s : State) (f : Frame) rest, s.host = .reset :: rest →
    step { s with port := .busy f } = step { s with port := .idle } ∧
    ∀ t, step { s with port := .busy f } = .next t → t.responses = s.responses ∧ t.port = .idle

/-- 30_encoding.md R61: an idle port accepts a request, which makes it busy; a busy port delivers exactly one response, which
makes it idle, and a request offered meanwhile stays with the host; only reset keeps the response away. That acceptance is one
step, and execution with delivery the very next, is the model's choice (log entry 4). -/
def Obligations.PortTakesOneRequestAtATime : Prop :=
  (∀ (s : State) f rest, s.port = .idle → s.host = .request f :: rest →
    step s = .next { s with port := .busy f, host := rest }) ∧
  (∀ (s : State) f g rest, s.port = .busy f → s.host = .request g :: rest →
    ∃ t r, step s = .next t ∧ t.port = .idle ∧ t.responses = s.responses ++ [r] ∧ t.host = .request g :: rest) ∧
  (∀ (s : State) f, s.port = .busy f → noReset s →
    ∃ t r, step s = .next t ∧ t.port = .idle ∧ t.responses = s.responses ++ [r]) ∧
  (∀ (s : State) f rest, s.port = .busy f → s.host = .reset :: rest →
    ∃ t, step s = .next t ∧ t.port = .idle ∧ t.responses = s.responses)

/-- 30_encoding.md R60, R74: the step of a busy port is the execution of the command its request carries. That the host's wait
for the response, if it waits, is over is the model's choice (log entry 4), and the second clause, that the very next step runs
a placed table word, rests on the model's choice of how a command is placed (log entry 5). -/
def Obligations.StepRunsTheDecodedCommand : Prop :=
  (∀ (s : State) f i, s.port = .busy f → noReset s → decodeFrame f = some i →
    step s = exec i { s with host := afterWait s.host }) ∧
  (∀ (s : State) nbits w i, decodeTableWord nbits w = some i →
    ∃ f, decodeFrame f = some i ∧ step (s.withFetchWord nbits w) = exec i { s with port := .busy f })

/-- 30_encoding.md R60: from an idle port, a request is accepted and then executed as one atomic step, with one response. That
acceptance is a step of its own, and that the host's wait is over after the second, are the model's choices (log entry 4). -/
def Obligations.RequestIsOneTransaction : Prop :=
  ∀ (s : State) f rest i, s.port = .idle → s.host = .request f :: rest → (∀ r, rest ≠ .reset :: r) →
    decodeFrame f = some i →
    Host.Core.run Sys2Proof.core 2 s = exec i { s with port := .busy f, host := afterWait rest }

/-- 60_exceptions.md R206: a request that is empty, has an unassigned opcode or a length that is not its format's gets
IllegalCommand with the opcode byte, or 0xFF where it is empty; the state is unchanged. That the host's wait is then over is the
model's choice (log entry 4). -/
def Obligations.IllegalCommandChangesNothing : Prop :=
  (∀ s : State, s.port = .busy [] → noReset s →
    step s = .next (answer { s with host := afterWait s.host } [0x05#8, 0xFF#8])) ∧
  (∀ (s : State) op rest, s.port = .busy (op :: rest) → noReset s →
    frameLength (op :: rest) ≠ some (rest.length + 1) →
    step s = .next (answer { s with host := afterWait s.host } [0x05#8, op]))

/-- 70_reset_and_hazards.md R251: without a command or a reset the block changes nothing and sends nothing. That the step is
then one that leaves the state as it is, is the model's choice (log entry 4). -/
def Obligations.IdlePortWaits : Prop :=
  (∀ s : State, s.port = .idle → s.host = [] → step s = .next s) ∧
  (∀ (s : State) rest, s.port = .idle → s.host = .awaitResponse :: rest → step s = .next { s with host := rest })

/-! ## The whole machine -/

/-- The invariant holds at reset (00_scope.md R6, 10_state.md R28, R29, R35). -/
def Obligations.InvariantHoldsAtReset : Prop := State.reset.Inv

/-- The invariant is kept by every step from every state that has it, reset and rejected requests among them: `CURSOR` in
`0..CAP` (10_state.md R29), `MASK[7:6] = 0` (R28), no buffer byte outside `0..CAP-1` and the buffer in canonical form
(20_memory.md R40, R42). -/
def Obligations.StepKeepsInvariant : Prop :=
  ∀ s t : State, s.Inv → step s = .next t → t.Inv

/-- Every state that a run can reach, whatever the host does and whatever the capacity and the sentinel, has the invariant:
the mask bits 7:6 are 0 "in every reachable state" (10_state.md R28), the cursor is in `0..CAP` (R29). -/
def Obligations.ReachableStatesAreGood : Prop :=
  ∀ (p : Params) (events : List HostEvent) (k : Nat), 1 ≤ p.cap → p.cap ≤ 254 →
    ∃ t, Host.Core.run Sys2Proof.core k ({ State.reset with params := p, host := events } : State) = .next t ∧ t.Inv

/-- 10_state.md R28, which every step keeps: bits 7:6 of the mask are never set. -/
def Obligations.ReservedMaskBitsStayZero : Prop :=
  ∀ s t : State, s.mask &&& 0xC0#8 = 0x00#8 → step s = .next t → t.mask &&& 0xC0#8 = 0x00#8

/-- 60_exceptions.md R200: every command of every state answers with one response, whose status is OK or one of the five
errors; the host's side and the parameters stay. -/
def Obligations.EveryCommandAnswersOnce : Prop :=
  ∀ (i : Instr) (s : State), ∃ t code info, exec i s = .next t ∧ t.port = .idle ∧
    t.responses = s.responses ++ [code :: info] ∧ code.toNat ≤ 5 ∧ t.host = s.host ∧ t.params = s.params ∧ t.epoch = s.epoch

/-- 60_exceptions.md R201, 00_scope.md R14: a command that answers with an error has changed no state element. -/
def Obligations.ErrorsChangeNothing : Prop :=
  ∀ (i : Instr) (s t : State) code info, exec i s = .next t → t.responses = s.responses ++ [code :: info] →
    code ≠ 0x00#8 → t = answer s (code :: info)

/-- 60_exceptions.md R209: nothing stops the block: every step of every state has a next state. -/
def Obligations.NoStepStops : Prop := ∀ s : State, ∃ t, step s = .next t

/-- 10_state.md R33: the parameters are fixed for the life of an instance, through resets too. -/
def Obligations.ParametersNeverChange : Prop :=
  ∀ s t : State, step s = .next t → t.params = s.params

/-- 10_state.md R29, 43_stream.md R133: no command but APPEND_BYTE changes the cursor. -/
def Obligations.OnlyAppendWritesTheCursor : Prop :=
  ∀ (i : Instr) (s t : State), (∀ b, i ≠ .appendByte b) → exec i s = .next t → t.cursor = s.cursor

/-- 10_state.md R29: no command but APPEND_BYTE reads the cursor: with another cursor the run is the same but for it. -/
def Obligations.OnlyAppendReadsTheCursor : Prop :=
  ∀ (i : Instr) (s t : State) (c : Byte), (∀ b, i ≠ .appendByte b) → exec i s = .next t →
    exec i { s with cursor := c } = .next { t with cursor := c }

/-- 20_memory.md R41: no command but PACK and APPEND_BYTE writes the buffer. -/
def Obligations.OnlyPackAndAppendWriteTheBuffer : Prop :=
  ∀ (i : Instr) (s t : State), i ≠ .pack → (∀ b, i ≠ .appendByte b) → exec i s = .next t →
    t.pbuf = s.pbuf ∧ ∀ a, t.pbufByte a = s.pbufByte a

/-- 20_memory.md R41: no command but GET_PAYLOAD reads the buffer: with another buffer, and another draw of its unwritten
bytes, every other state element and the response are the same, and each buffer byte is either left alone in both runs or
ends with the same value in both, so that no old byte reaches another place in the buffer. -/
def Obligations.OnlyGetPayloadReadsTheBuffer : Prop :=
  ∀ (i : Instr) (s t : State) (m : List Host.Cell) (e : Nat), i ≠ .getPayload → exec i s = .next t →
    ∃ m', exec i { s with pbuf := m, epoch := e } = .next { t with pbuf := m', epoch := e } ∧
      ∀ a, (t.pbufByte a = s.pbufByte a ∧
          State.pbufByte { t with pbuf := m', epoch := e } a = State.pbufByte { s with pbuf := m, epoch := e } a) ∨
        State.pbufByte { t with pbuf := m', epoch := e } a = t.pbufByte a

/-! ## Setters -/

/-- 40_setters.md R100: SET_MOTOR, its result, its error and its frame. The error shows a count over 255,
which no frame carries, by its low byte: the model's choice (log entry 13). -/
def Obligations.SetMotorStoresFourEncoders : Prop :=
  (∀ (a b c d : Half) (s : State), exec (.setMotor [a, b, c, d]) s =
    .next (answer { s with regs := { s.regs with enc := #v[a, b, c, d] }, mask := s.mask ||| 0x01#8 } [0x00#8])) ∧
  (∀ (vs : List Half) (s : State), vs.length ≠ 4 →
    exec (.setMotor vs) s = .next (answer s [0x04#8, 4#8, BitVec.ofNat 8 vs.length])) ∧
  (∀ vs : List Half, vs.length ≤ 255 →
    decodeFrame (0x00#8 :: BitVec.ofNat 8 vs.length :: vs.flatMap le16) = some (.setMotor vs)) ∧
  (∀ (n : Byte) bs, bs.length ≠ 2 * n.toNat → decodeFrame (0x00#8 :: n :: bs) = none) ∧ decodeFrame [0x00#8] = none

/-- 40_setters.md R101: SET_SWITCH, its result, its error and its frame. The error shows a count over 255,
which no frame carries, by its low byte: the model's choice (log entry 13). -/
def Obligations.SetSwitchStoresFourBytes : Prop :=
  (∀ (a b c d : Byte) (s : State), exec (.setSwitch [a, b, c, d]) s =
    .next (answer { s with regs := { s.regs with sw := #v[a, b, c, d] }, mask := s.mask ||| 0x02#8 } [0x00#8])) ∧
  (∀ (vs : List Byte) (s : State), vs.length ≠ 4 →
    exec (.setSwitch vs) s = .next (answer s [0x04#8, 4#8, BitVec.ofNat 8 vs.length])) ∧
  (∀ vs : List Byte, vs.length ≤ 255 →
    decodeFrame (0x01#8 :: BitVec.ofNat 8 vs.length :: vs) = some (.setSwitch vs)) ∧
  (∀ (n : Byte) bs, bs.length ≠ n.toNat → decodeFrame (0x01#8 :: n :: bs) = none) ∧ decodeFrame [0x01#8] = none

/-- 40_setters.md R102: SET_POT, its result, its error and its frame. The error shows a count over 255,
which no frame carries, by its low byte: the model's choice (log entry 13). -/
def Obligations.SetPotStoresTwoPotentiometers : Prop :=
  (∀ (a b : Half) (s : State), exec (.setPot [a, b]) s =
    .next (answer { s with regs := { s.regs with pot := #v[a, b] }, mask := s.mask ||| 0x04#8 } [0x00#8])) ∧
  (∀ (vs : List Half) (s : State), vs.length ≠ 2 →
    exec (.setPot vs) s = .next (answer s [0x04#8, 2#8, BitVec.ofNat 8 vs.length])) ∧
  (∀ vs : List Half, vs.length ≤ 255 →
    decodeFrame (0x02#8 :: BitVec.ofNat 8 vs.length :: vs.flatMap le16) = some (.setPot vs)) ∧
  (∀ (n : Byte) bs, bs.length ≠ 2 * n.toNat → decodeFrame (0x02#8 :: n :: bs) = none) ∧ decodeFrame [0x02#8] = none

/-- 40_setters.md R103: SET_DIODE, its result, its error and its frame. The error shows a count over 255,
which no frame carries, by its low byte: the model's choice (log entry 13). -/
def Obligations.SetDiodeStoresTheDiode : Prop :=
  (∀ (a : Half) (s : State), exec (.setDiode [a]) s =
    .next (answer { s with regs := { s.regs with diode := a }, mask := s.mask ||| 0x08#8 } [0x00#8])) ∧
  (∀ (vs : List Half) (s : State), vs.length ≠ 1 →
    exec (.setDiode vs) s = .next (answer s [0x04#8, 1#8, BitVec.ofNat 8 vs.length])) ∧
  (∀ vs : List Half, vs.length ≤ 255 →
    decodeFrame (0x03#8 :: BitVec.ofNat 8 vs.length :: vs.flatMap le16) = some (.setDiode vs)) ∧
  (∀ (n : Byte) bs, bs.length ≠ 2 * n.toNat → decodeFrame (0x03#8 :: n :: bs) = none) ∧ decodeFrame [0x03#8] = none

/-- 40_setters.md R104: SET_TEMP, its result, its error and its frame; every pattern is stored bit for bit. The error shows a count
over 255, which no frame carries, by its low byte: the model's choice (log entry 13). -/
def Obligations.SetTempStoresThePattern : Prop :=
  (∀ (a : Pattern) (s : State), exec (.setTemp [a]) s =
    .next (answer { s with regs := { s.regs with temp := a }, mask := s.mask ||| 0x10#8 } [0x00#8])) ∧
  (∀ (vs : List Pattern) (s : State), vs.length ≠ 1 →
    exec (.setTemp vs) s = .next (answer s [0x04#8, 1#8, BitVec.ofNat 8 vs.length])) ∧
  (∀ vs : List Pattern, vs.length ≤ 255 →
    decodeFrame (0x04#8 :: BitVec.ofNat 8 vs.length :: vs.flatMap le32) = some (.setTemp vs)) ∧
  (∀ (n : Byte) bs, bs.length ≠ 4 * n.toNat → decodeFrame (0x04#8 :: n :: bs) = none) ∧ decodeFrame [0x04#8] = none

/-- 40_setters.md R105: SET_IMU, its result, its error and its frame. The error shows a count over 255,
which no frame carries, by its low byte: the model's choice (log entry 13). -/
def Obligations.SetImuStoresSixPatterns : Prop :=
  (∀ (a b c d e f : Pattern) (s : State), exec (.setImu [a, b, c, d, e, f]) s =
    .next (answer { s with regs := { s.regs with imu := #v[a, b, c, d, e, f] }, mask := s.mask ||| 0x20#8 } [0x00#8])) ∧
  (∀ (vs : List Pattern) (s : State), vs.length ≠ 6 →
    exec (.setImu vs) s = .next (answer s [0x04#8, 6#8, BitVec.ofNat 8 vs.length])) ∧
  (∀ vs : List Pattern, vs.length ≤ 255 →
    decodeFrame (0x05#8 :: BitVec.ofNat 8 vs.length :: vs.flatMap le32) = some (.setImu vs)) ∧
  (∀ (n : Byte) bs, bs.length ≠ 4 * n.toNat → decodeFrame (0x05#8 :: n :: bs) = none) ∧ decodeFrame [0x05#8] = none

/-- 40_setters.md R106: a setter writes its own field and its own mask bit, with any element count; the other fields, the other
mask bits, the cursor, the buffer stay, and no mask bit is ever cleared. -/
def Obligations.SetterFrame : Prop :=
  ∀ (f : Field) (vs : List Nat) (s t : State), exec (setter f vs) s = .next t →
    (∀ g j, g ≠ f → j < g.count → t.regs.elem g j = s.regs.elem g j) ∧
    (∀ k, k ≠ f.index → t.mask.getLsbD k = s.mask.getLsbD k) ∧
    (s.mask.getLsbD f.index = true → t.mask.getLsbD f.index = true) ∧
    t.cursor = s.cursor ∧ t.pbuf = s.pbuf ∧ (∀ a, t.pbufByte a = s.pbufByte a) ∧
    t.params = s.params ∧ t.epoch = s.epoch ∧ t.host = s.host

/-- 40_setters.md R106: setters of different fields commute. -/
def Obligations.SettersOfDifferentFieldsCommute : Prop :=
  ∀ (f g : Field) (vs ws : List Nat) (s : State), f ≠ g → vs.length = f.count → ws.length = g.count →
    ∃ t, execAll [setter f vs, setter g ws] s = .next t ∧ execAll [setter g ws, setter f vs] s = .next t

/-- 40_setters.md R106: the last of several setters to one field wins: the first leaves nothing but its response. -/
def Obligations.LastSetterOfAFieldWins : Prop :=
  ∀ (f : Field) (vs ws : List Nat) (s : State), vs.length = f.count → ws.length = f.count →
    execAll [setter f vs, setter f ws] s = exec (setter f ws) (answer s [0x00#8])

/-! ## PACK -/

/-- 41_pack.md R110: PACK, its result, its error and its frame: the payload of the captured mask is written from offset 0, no
other buffer byte, field register or cursor changes, every serialized mask bit is cleared. -/
def Obligations.PackWritesThePayload : Prop :=
  (∀ s : State, need (s.mask &&& 0x3F#8) ≤ s.params.cap →
    ∃ m, exec .pack s = .next (answer { s with pbuf := m, mask := s.mask &&& ~~~(s.mask &&& 0x3F#8) }
        [0x00#8, BitVec.ofNat 8 (need (s.mask &&& 0x3F#8))]) ∧
      (payloadOf (s.mask &&& 0x3F#8) s.regs).length = need (s.mask &&& 0x3F#8) ∧
      ∀ a, State.pbufByte { s with pbuf := m } a =
        if a < need (s.mask &&& 0x3F#8) then (payloadOf (s.mask &&& 0x3F#8) s.regs)[a]?.getD 0 else s.pbufByte a) ∧
  (∀ s : State, s.params.cap < need (s.mask &&& 0x3F#8) →
    exec .pack s = .next (answer s [0x01#8, BitVec.ofNat 8 (need (s.mask &&& 0x3F#8))])) ∧
  decodeFrame [0x10#8] = some .pack ∧ ∀ b bs, decodeFrame (0x10#8 :: b :: bs) = none

/-- 30_encoding.md R65: with all six fields pending, the offset of every element in the buffer after PACK. -/
def Obligations.FullPayloadOffsets : Prop :=
  ∀ s : State, s.mask &&& 0x3F#8 = 0x3F#8 → 47 ≤ s.params.cap →
    ∃ t, exec .pack s = .next t ∧ t.responses = s.responses ++ [[0x00#8, 47#8]] ∧ t.pbufByte 0 = 0x3F#8 ∧
      (∀ j (h : j < 4), [t.pbufByte (1 + 2 * j), t.pbufByte (2 + 2 * j)] = le16 s.regs.enc[j]) ∧
      (∀ j (h : j < 4), t.pbufByte (9 + j) = s.regs.sw[j]) ∧
      (∀ j (h : j < 2), [t.pbufByte (13 + 2 * j), t.pbufByte (14 + 2 * j)] = le16 s.regs.pot[j]) ∧
      [t.pbufByte 17, t.pbufByte 18] = le16 s.regs.diode ∧
      [t.pbufByte 19, t.pbufByte 20, t.pbufByte 21, t.pbufByte 22] = le32 s.regs.temp ∧
      (∀ j (h : j < 6), [t.pbufByte (23 + 4 * j), t.pbufByte (24 + 4 * j), t.pbufByte (25 + 4 * j),
        t.pbufByte (26 + 4 * j)] = le32 s.regs.imu[j])

/-- 30_encoding.md R65: the start offset of each present field in the payload of any mask. -/
def Obligations.FieldsStandAtTheirOffsets : Prop :=
  ∀ (s : State) (f : Field), need (s.mask &&& 0x3F#8) ≤ s.params.cap → s.mask.getLsbD f.index = true →
    ∃ t, exec .pack s = .next t ∧
      ∀ k, k < f.width →
        t.pbufByte (fieldOffset (s.mask &&& 0x3F#8) f + k) = (s.regs.fieldBytes f)[k]?.getD 0

/-- 30_encoding.md R64: a payload is `Req(m)` bytes long, at least 1 (mask 0x00) and at most 47 (mask 0x3F). -/
def Obligations.PayloadLengthBounds : Prop :=
  (∀ (m : Byte) (r : Snapshot), (payload m r).length = need m ∧ 1 ≤ need m ∧ need m ≤ 47) ∧
  need 0x00#8 = 1 ∧ need 0x3F#8 = 47 ∧ ∀ m : Byte, req m = need m

/-- 41_pack.md R115, R113: a PACK directly after a PACK writes the empty payload, one byte 0x00, and returns 1. -/
def Obligations.SecondPackIsEmpty : Prop :=
  ∀ s : State, s.mask &&& 0xC0#8 = 0x00#8 → need (s.mask &&& 0x3F#8) ≤ s.params.cap →
    ∃ t u, exec .pack s = .next t ∧ t.mask = 0x00#8 ∧ exec .pack t = .next u ∧
      u.responses = t.responses ++ [[0x00#8, 1#8]] ∧ u.pbufByte 0 = 0x00#8 ∧ u.mask = 0x00#8 ∧ u.regs = s.regs ∧
      ∀ a, 1 ≤ a → u.pbufByte a = t.pbufByte a

/-- 41_pack.md R111: with the capacity of this hardware PACK never fails. -/
def Obligations.PackAlwaysFitsThisHardware : Prop :=
  ∀ s : State, s.params.cap = Config.cap →
    ∃ t n, exec .pack s = .next t ∧ t.responses = s.responses ++ [[0x00#8, n]]

/-! ## UNPACK -/

/-- 42_unpack.md R120, R121, R122, R123, R125: UNPACK, its result, its errors and its frame: each element of a present field
comes from its own bytes of the input, absent fields keep their values, the mask is overwritten, nothing else changes. -/
def Obligations.UnpackDecodesPresentFields : Prop :=
  (∀ s : State, exec (.unpack []) s = .next (answer s [0x02#8, 1#8, 0#8])) ∧
  (∀ (d0 : Byte) bs (s : State), bs.length + 1 < need (d0 &&& 0x3F#8) →
    exec (.unpack (d0 :: bs)) s =
      .next (answer s [0x02#8, BitVec.ofNat 8 (need (d0 &&& 0x3F#8)), BitVec.ofNat 8 (bs.length + 1)])) ∧
  (∀ (d0 : Byte) bs (s : State), need (d0 &&& 0x3F#8) ≤ bs.length + 1 →
    ∃ r, exec (.unpack (d0 :: bs)) s =
        .next (answer { s with regs := r, mask := d0 &&& 0x3F#8 } [0x00#8, d0 &&& 0x3F#8]) ∧
      ∀ f j, j < Field.count f → r.elem f j =
        if d0.getLsbD f.index then
          leValue (((d0 :: bs).drop (fieldOffset (d0 &&& 0x3F#8) f + j * f.elemWidth)).take f.elemWidth)
        else s.regs.elem f j) ∧
  (∀ d : List Byte, d.length ≤ 255 → decodeFrame (0x11#8 :: BitVec.ofNat 8 d.length :: d) = some (.unpack d)) ∧
  (∀ (l : Byte) d, d.length ≠ l.toNat → decodeFrame (0x11#8 :: l :: d) = none) ∧ decodeFrame [0x11#8] = none

/-- 42_unpack.md R124: bytes after those the mask implies are ignored. -/
def Obligations.UnpackIgnoresTrailingBytes : Prop :=
  ∀ (d0 : Byte) bs extra (s : State), need (d0 &&& 0x3F#8) ≤ bs.length + 1 →
    exec (.unpack (d0 :: (bs ++ extra))) s = exec (.unpack (d0 :: bs)) s

/-- 42_unpack.md R122: bits 7:6 of the mask byte are ignored. -/
def Obligations.UnpackIgnoresReservedBits : Prop :=
  ∀ (d0 : Byte) bs (s : State), exec (.unpack (d0 :: bs)) s = exec (.unpack ((d0 &&& 0x3F#8) :: bs)) s

/-- 42_unpack.md R126: what one instance packs, any instance unpacks: the mask, the present fields bit for bit, and nothing
else. -/
def Obligations.UnpackOfPackRestoresTheFields : Prop :=
  ∀ (a b : State), need (a.mask &&& 0x3F#8) ≤ a.params.cap →
    ∃ a', exec .pack a = .next a' ∧
      a'.responses = a.responses ++ [[0x00#8, BitVec.ofNat 8 (need (a.mask &&& 0x3F#8))]] ∧
      ∃ r, exec (.unpack ((List.range (need (a.mask &&& 0x3F#8))).map a'.pbufByte)) b =
          .next (answer { b with regs := r, mask := a.mask &&& 0x3F#8 } [0x00#8, a.mask &&& 0x3F#8]) ∧
        ∀ f j, j < Field.count f → r.elem f j = if a.mask.getLsbD f.index then a.regs.elem f j else b.regs.elem f j

/-- 70_reset_and_hazards.md R249, 42_unpack.md R125: decoded fields are pending: a PACK after an UNPACK writes the bytes that
were unpacked, under their mask. -/
def Obligations.PackOfUnpackReemitsThePayload : Prop :=
  ∀ (d0 : Byte) bs (s : State), need (d0 &&& 0x3F#8) ≤ bs.length + 1 → need (d0 &&& 0x3F#8) ≤ s.params.cap →
    ∃ t, execAll [.unpack (d0 :: bs), .pack] s = .next t ∧
      t.responses = s.responses ++ [[0x00#8, d0 &&& 0x3F#8], [0x00#8, BitVec.ofNat 8 (need (d0 &&& 0x3F#8))]] ∧
      t.pbufByte 0 = d0 &&& 0x3F#8 ∧
      (∀ k, 1 ≤ k → k < need (d0 &&& 0x3F#8) → t.pbufByte k = (d0 :: bs)[k]?.getD 0) ∧
      ∀ k, need (d0 &&& 0x3F#8) ≤ k → t.pbufByte k = s.pbufByte k

/-! ## APPEND_BYTE -/

/-- 43_stream.md R130, for every sentinel and capacity: APPEND_BYTE, its results, its error and its frame. At `CURSOR = 255`, which
no run reaches, `CURSOR + 1` is cut to a byte: the model's deduction (log entry 11). -/
def Obligations.AppendByteStoresOrResets : Prop :=
  (∀ s : State, exec (.appendByte s.params.sentinel) s = .next (answer { s with cursor := 0#8 } [0x00#8, 0#8])) ∧
  (∀ (b : Byte) (s : State), b ≠ s.params.sentinel → s.cursor.toNat < s.params.cap →
    ∃ m, exec (.appendByte b) s =
        .next (answer { s with pbuf := m, cursor := s.cursor + 1#8 } [0x00#8, s.cursor + 1#8]) ∧
      ∀ a, State.pbufByte { s with pbuf := m } a = if a = s.cursor.toNat then b else s.pbufByte a) ∧
  (∀ (b : Byte) (s : State), b ≠ s.params.sentinel → s.params.cap ≤ s.cursor.toNat →
    exec (.appendByte b) s = .next (answer s [0x01#8, BitVec.ofNat 8 (s.cursor.toNat + 1)])) ∧
  (∀ b : Byte, decodeFrame [0x12#8, b] = some (.appendByte b)) ∧
  ∀ bs : List Byte, bs.length ≠ 1 → decodeFrame (0x12#8 :: bs) = none

/-- 43_stream.md R130, R133: bytes appended from cursor 0, none of them the sentinel and no more than fit, stand in the buffer
in the order they came, and the cursor counts them. -/
def Obligations.AppendedBytesAccumulate : Prop :=
  ∀ (bs : List Byte) (s : State), (∀ b ∈ bs, b ≠ s.params.sentinel) → s.cursor = 0#8 → bs.length ≤ s.params.cap →
    s.params.cap ≤ 254 →
    ∃ t, execAll (bs.map .appendByte) s = .next t ∧ t.cursor.toNat = bs.length ∧ t.regs = s.regs ∧ t.mask = s.mask ∧
      (∀ k, k < bs.length → t.pbufByte k = bs[k]?.getD 0) ∧ ∀ k, bs.length ≤ k → t.pbufByte k = s.pbufByte k

/-- 30_encoding.md R81: the pseudo-instructions. -/
def Obligations.PseudoInstructionsExpand : Prop :=
  (∀ s : State, exec (cursorReset s.params.sentinel) s = .next (answer { s with cursor := 0#8 } [0x00#8, 0#8])) ∧
  (∀ s : State, need (s.mask &&& 0x3F#8) ≤ s.params.cap →
    ∃ t, exec discardPending s = .next t ∧ t.mask &&& 0x3F#8 = 0x00#8 ∧ t.regs = s.regs)

/-! ## READ_TEXT -/

/-- 44_text_decode.md R141: the integer tokens and their values; a token that is none raises MalformedToken, here as the only
element of ref_diode. -/
def Obligations.IntegerTokensAreDigits : Prop :=
  (∀ (t : Token) (max v : Nat), parseUInt t max = some v ↔ t ≠ [] ∧ Digits t ∧ placeValue t = v ∧ v ≤ max) ∧
  ∀ (t : Token) (s : State), ¬ (t ≠ [] ∧ Digits t ∧ placeValue t ≤ 65535) →
    exec (.readText [ascii "8", t]) s = .next (answer s [0x03#8, 1#8])

/-- 44_text_decode.md R142: exactly the strings of the grammar are float tokens; every other string raises MalformedToken, here
as the only element of temp_sensor. -/
def Obligations.FloatTokensAreTheGrammar : Prop :=
  (∀ t : Token, (parseFloat t).isSome = true ↔ ∃ p : FloatParts, p.Legal ∧ p.text = t) ∧
  ∀ (t : Token) (s : State), (¬ ∃ p : FloatParts, p.Legal ∧ p.text = t) →
    exec (.readText [ascii "16", t]) s = .next (answer s [0x03#8, 1#8])

/-- 44_text_decode.md R143: the value of a float token is its exact value rounded to nearest, ties to even, with the sign of
the token. The binary32 layout and the rounding are those the spec takes from general knowledge (log entry 7, PRESUMED). -/
def Obligations.FloatTokensRoundToNearest : Prop :=
  ∀ p : FloatParts, p.Legal →
    ∃ v : Pattern, parseFloat p.text = some v ∧ binary32Sign v = decide (p.sign = some true) ∧
      NearestEven (p.mant * 10 ^ p.power.toNat) (10 ^ (-p.power).toNat) (v.toNat % 2 ^ 31)

/-- 44_text_decode.md R145, R144: READ_TEXT, its result and its errors: every element of a present field is the value of its token,
absent fields keep theirs, the mask is overwritten; the first token, in consumption order, that is missing or fails its parser
is the one reported, and then nothing is written; a frame whose token walk does not end at its end is no command. -/
def Obligations.ReadTextDecodesTokens : Prop :=
  (∀ (t0 : Token) ts mv vs (s : State), parseUInt t0 255 = some mv →
    denoted (elementFields (BitVec.ofNat 8 mv &&& 0x3F#8)) ts = some vs →
    ∃ r, exec (.readText (t0 :: ts)) s =
        .next (answer { s with regs := r, mask := BitVec.ofNat 8 mv &&& 0x3F#8 } [0x00#8, BitVec.ofNat 8 mv &&& 0x3F#8]) ∧
      ∀ f j, j < Field.count f → r.elem f j =
        if (BitVec.ofNat 8 mv).getLsbD f.index then vs[elementIndex (BitVec.ofNat 8 mv &&& 0x3F#8) f j]?.getD 0
        else s.regs.elem f j) ∧
  (∀ s : State, exec (.readText []) s = .next (answer s [0x03#8, 0#8])) ∧
  (∀ (t0 : Token) ts (s : State), parseUInt t0 255 = none → exec (.readText (t0 :: ts)) s = .next (answer s [0x03#8, 0#8])) ∧
  (∀ (t0 : Token) ts mv k f (s : State), parseUInt t0 255 = some mv →
    (elementFields (BitVec.ofNat 8 mv &&& 0x3F#8))[k]? = some f →
    (denoted ((elementFields (BitVec.ofNat 8 mv &&& 0x3F#8)).take k) ts).isSome = true → badToken f ts[k]? →
    exec (.readText (t0 :: ts)) s = .next (answer s [0x03#8, BitVec.ofNat 8 (k + 1)])) ∧
  (∀ (n : Byte) bs, tokenWalk n.toNat bs ≠ some bs.length → decodeFrame (0x13#8 :: n :: bs) = none) ∧
  decodeFrame [0x13#8] = none

/-- 44_text_decode.md R140: the frame of READ_TEXT, and of no other shape. -/
def Obligations.ReadTextFrames : Prop :=
  (∀ ts : List Token, ts.length ≤ 255 → (∀ t ∈ ts, t.length ≤ 255) →
    decodeFrame (0x13#8 :: BitVec.ofNat 8 ts.length :: ts.flatMap fun t => BitVec.ofNat 8 t.length :: t) =
      some (.readText ts)) ∧
  (∀ (ts : List Token) (b : Byte) bs, ts.length ≤ 255 → (∀ t ∈ ts, t.length ≤ 255) →
    decodeFrame (0x13#8 :: BitVec.ofNat 8 ts.length ::
      ((ts.flatMap fun t => BitVec.ofNat 8 t.length :: t) ++ b :: bs)) = none) ∧
  decodeFrame [0x13#8] = none

/-- 44_text_decode.md R146: tokens beyond the last one the mask consumes are ignored. -/
def Obligations.ReadTextIgnoresExtraTokens : Prop :=
  ∀ (t0 : Token) ts extra mv (s : State), parseUInt t0 255 = some mv →
    (elementFields (BitVec.ofNat 8 mv &&& 0x3F#8)).length ≤ ts.length →
    exec (.readText (t0 :: (ts ++ extra))) s = exec (.readText (t0 :: ts)) s

/-- 44_text_decode.md R147: READ_TEXT leaves the same state and result as UNPACK of the payload that holds the values its tokens
denote, each by the parser of its field (R144). -/
def Obligations.ReadTextEqualsUnpack : Prop :=
  ∀ (t0 : Token) ts mv vs (s : State), parseUInt t0 255 = some mv →
    denoted (elementFields (BitVec.ofNat 8 mv &&& 0x3F#8)) ts = some vs →
    exec (.readText (t0 :: ts)) s =
      exec (.unpack ((BitVec.ofNat 8 mv &&& 0x3F#8) :: elementBytes (elementFields (BitVec.ofNat 8 mv &&& 0x3F#8)) vs)) s

/-! ## Accessors -/

/-- 45_accessors.md R160: GET_SENSORS returns the mask and every field in the layout of a full payload, and changes nothing. -/
def Obligations.GetSensorsReturnsEveryField : Prop :=
  (∀ s : State, exec .getSensors s = .next (answer s (0x00#8 :: s.mask :: (wire s.regs).flatMap fun p => p.2)) ∧
    (s.mask :: (wire s.regs).flatMap fun p => p.2).length = 47) ∧
  decodeFrame [0x20#8] = some .getSensors ∧ ∀ b bs, decodeFrame (0x20#8 :: b :: bs) = none

/-- 45_accessors.md R161: GET_PAYLOAD returns the whole buffer, and changes nothing; a byte not stored since reset is the free
value of its reset (log entry 3). -/
def Obligations.GetPayloadReturnsTheBuffer : Prop :=
  (∀ s : State, exec .getPayload s = .next (answer s (0x00#8 :: (List.range s.params.cap).map s.pbufByte))) ∧
  decodeFrame [0x21#8] = some .getPayload ∧ ∀ b bs, decodeFrame (0x21#8 :: b :: bs) = none

/-- 20_memory.md R49: a repeated accessor returns the same bytes. -/
def Obligations.AccessorsRepeat : Prop :=
  ∀ (i : Instr) (s : State), i = .getSensors ∨ i = .getPayload →
    ∃ r, execAll [i, i] s = .next (answer (answer s r) r)

/-! ## Assembler -/

/-- 30_encoding.md R80: lines of the programs of 95_test_vectors.md L3, and their frames. -/
def Obligations.ProgramLinesAssemble : Prop :=
  assemble 0x7E#8 (ascii "SET_TEMP 0x41BC0000") = some [0x04, 0x01, 0x00, 0x00, 0xBC, 0x41] ∧
  assemble 0x7E#8 (ascii "SET_MOTOR 1, 2, 3, 0xFFFF ; four encoders") =
    some [0x00, 0x04, 0x01, 0x00, 0x02, 0x00, 0x03, 0x00, 0xFF, 0xFF] ∧
  assemble 0x7E#8 (ascii "SET_POT 1") = some [0x02, 0x01, 0x01, 0x00] ∧
  assemble 0x7E#8 (ascii "UNPACK [0x10, 0, 0, 0xBC, 0x41]") = some [0x11, 0x05, 0x10, 0x00, 0x00, 0xBC, 0x41] ∧
  assemble 0x7E#8 (ascii "CURSOR_RESET") = some [0x12, 0x7E] ∧
  assemble 0x7E#8 (ascii "READ_TEXT \"24\", \"5\", \"1.5\"") =
    some [0x13, 0x03, 0x02, 0x32, 0x34, 0x01, 0x35, 0x03, 0x31, 0x2E, 0x35] ∧
  assemble 0x7E#8 (ascii "DISCARD_PENDING") = some [0x10] ∧
  assemble 0x7E#8 (ascii "GET_PAYLOAD") = some [0x21]
end

