-- ==== Sys2Proof/Laws/Bytes.lean ====
section
/-! SUPPORT. Laws/Bytes.lean: byte strings and values (00_scope.md R11), and the elements cut from a byte string. -/

namespace Sys2Proof

@[simp] theorem leBytes_zero (v : Nat) : leBytes v 0 = [] := rfl

@[simp] theorem leBytes_succ (v n : Nat) : leBytes v (n + 1) = BitVec.ofNat 8 v :: leBytes (v / 256) n := rfl

@[simp] theorem leBytes_length (v n : Nat) : (leBytes v n).length = n := by
  induction n generalizing v with
  | zero => rfl
  | succ n ih => simp [ih]

@[simp] theorem leValue_nil : leValue [] = 0 := rfl

@[simp] theorem leValue_cons (b : Byte) (bs : List Byte) : leValue (b :: bs) = b.toNat + 256 * leValue bs := rfl

/-- A value fits its bytes (R11: `le_value(le_bytes(v, n)) = v` for every `v < 256^n`; any other value is cut to them). -/
theorem leValue_leBytes (v n : Nat) : leValue (leBytes v n) = v % 256 ^ n := by
  induction n generalizing v with
  | zero => simp [Nat.mod_one]
  | succ n ih =>
    rw [leBytes_succ, leValue_cons, ih, BitVec.toNat_ofNat, show 256 ^ (n + 1) = 256 * 256 ^ n from Nat.pow_succ',
      Nat.mod_mul]

theorem leValue_leBytes_of_lt {v n : Nat} (h : v < 256 ^ n) : leValue (leBytes v n) = v := by
  rw [leValue_leBytes, Nat.mod_eq_of_lt h]

theorem leValue_lt (bs : List Byte) : leValue bs < 256 ^ bs.length := by
  induction bs with
  | nil => simp
  | cons b bs ih =>
    have := b.isLt
    simp only [leValue_cons, List.length_cons, Nat.pow_succ]
    omega

theorem leBytes_leValue (bs : List Byte) : leBytes (leValue bs) bs.length = bs := by
  induction bs with
  | nil => rfl
  | cons b bs ih =>
    have hb := b.isLt
    have hd : (b.toNat + 256 * leValue bs) / 256 = leValue bs := by omega
    rw [List.length_cons, leBytes_succ, leValue_cons, hd, ih]
    congr 1
    apply BitVec.eq_of_toNat_eq
    rw [BitVec.toNat_ofNat]
    omega

/-- A register's bytes give back the register's value. -/
theorem leValue_leBytes_toNat {w : Nat} (v : BitVec w) {n : Nat} (h : 2 ^ w = 256 ^ n) :
    leValue (leBytes v.toNat n) = v.toNat := leValue_leBytes_of_lt (h ▸ v.isLt)

@[simp] theorem leElems_length (ew n : Nat) (bs : List Byte) : (leElems ew n bs).length = n := by
  induction n generalizing bs with
  | zero => rfl
  | succ n ih => simp [leElems, ih]

/-- Element `j` is the value of its own bytes. -/
theorem leElems_getElem? {ew n : Nat} {bs : List Byte} {j : Nat} (h : j < n) :
    (leElems ew n bs)[j]? = some (leValue ((bs.drop (j * ew)).take ew)) := by
  induction n generalizing bs j with
  | zero => omega
  | succ n ih =>
    cases j with
    | zero => simp [leElems]
    | succ j =>
      rw [leElems, List.getElem?_cons_succ, ih (by omega), List.drop_drop, Nat.succ_mul, Nat.add_comm]

/-- Elements laid side by side are cut apart as they were. -/
theorem leElems_flatMap_leBytes (ew : Nat) (vs : List Nat) (rest : List Byte) :
    leElems ew vs.length ((vs.flatMap fun v => leBytes v ew) ++ rest) = vs.map fun v => v % 256 ^ ew := by
  induction vs with
  | nil => rfl
  | cons v vs ih =>
    simp only [List.length_cons, leElems, List.flatMap_cons, List.append_assoc, List.map_cons]
    rw [List.take_append_of_le_length (by simp), List.drop_append_of_le_length (by simp)]
    simp [leValue_leBytes, List.take_of_length_le, List.drop_of_length_le, ih]

theorem flatMap_leBytes_length (ew : Nat) (vs : List Nat) :
    (vs.flatMap fun v => leBytes v ew).length = vs.length * ew := by
  induction vs with
  | nil => simp
  | cons v vs ih => simp [ih, Nat.succ_mul, Nat.add_comm]

/-- Bytes cut into elements and laid side by side are the bytes. -/
theorem flatMap_leBytes_leElems (ew n : Nat) (bs : List Byte) (h : bs.length = n * ew) :
    (leElems ew n bs).flatMap (fun v => leBytes v ew) = bs := by
  induction n generalizing bs with
  | zero => simp at h; simp [leElems, h]
  | succ n ih =>
    have hl : (bs.take ew).length = ew := by rw [List.length_take]; rw [Nat.succ_mul] at h; omega
    have hd : (bs.drop ew).length = n * ew := by rw [List.length_drop]; rw [Nat.succ_mul] at h; omega
    rw [leElems, List.flatMap_cons, ih _ hd]
    have hb := leBytes_leValue (bs.take ew)
    rw [hl] at hb
    rw [hb]
    exact List.take_append_drop ew bs

end Sys2Proof
end

