-- ==== Sys2Proof/Laws/Fields.lean ====
section
/-! SUPPORT. Laws/Fields.lean: the field registers read and written element by element, and the payload's length. -/

namespace Sys2Proof.Machine

/-! ## Elements -/

theorem Snapshot.elem_lt (r : Snapshot) (f : Field) (j : Nat) : r.elem f j < 256 ^ f.elemWidth := by
  cases f <;> exact BitVec.isLt _

/-- An element read after an element is written. -/
theorem Snapshot.elem_setElem (r : Snapshot) {f g : Field} {j k : Nat} (v : Nat) (hk : k < g.count) (hj : j < f.count) :
    (r.setElem f j v).elem g k = if f = g ∧ j = k then v % 256 ^ f.elemWidth else r.elem g k := by
  by_cases hfg : f = g
  · subst hfg
    cases f <;> simp only [Field.count] at hk hj <;>
      simp [Snapshot.setElem, Snapshot.elem, Field.elemWidth, Vector.getElem?_setIfInBounds, hj] <;>
      (try (split <;> simp_all)) <;> omega
  · simp only [hfg, false_and, if_false]
    cases f <;> cases g <;> first | exact absurd rfl hfg | rfl

/-- An element read after a list is stored from element `j` on. -/
theorem Snapshot.elem_storeElems (f : Field) (j : Nat) (vs : List Nat) (r : Snapshot) {g : Field} {k : Nat}
    (hk : k < g.count) (hj : j + vs.length ≤ f.count) :
    (Snapshot.storeElems f j vs r).elem g k =
      if f = g ∧ j ≤ k ∧ k < j + vs.length then (vs[k - j]?.getD 0) % 256 ^ f.elemWidth else r.elem g k := by
  induction vs generalizing j r with
  | nil => rw [if_neg (by rintro ⟨-, h1, h2⟩; simp at h2; omega)]; rfl
  | cons v vs ih =>
    simp only [List.length_cons] at hj
    rw [Snapshot.storeElems, ih (j + 1) (r.setElem f j v) (by omega), Snapshot.elem_setElem r v hk (by omega)]
    by_cases hfg : f = g
    · by_cases hjk : j = k
      · subst hjk; simp [hfg]
      · by_cases hr : j + 1 ≤ k ∧ k < j + 1 + vs.length
        · rw [if_pos ⟨hfg, hr⟩, if_pos ⟨hfg, by simp only [List.length_cons]; omega⟩,
            show k - j = (k - (j + 1)) + 1 by omega, List.getElem?_cons_succ]
        · rw [if_neg (fun h => hr h.2), if_neg (fun h => hjk h.2), if_neg]
          rintro ⟨-, h⟩
          simp only [List.length_cons] at h
          omega
    · simp [hfg]

/-- Two snapshots with the same elements are the same. -/
theorem Snapshot.ext_elem {r q : Snapshot} (h : ∀ f j, j < Field.count f → r.elem f j = q.elem f j) : r = q := by
  obtain ⟨renc, rsw, rpot, rdiode, rtemp, rimu⟩ := r
  obtain ⟨qenc, qsw, qpot, qdiode, qtemp, qimu⟩ := q
  congr 1
  · exact Vector.ext fun j hj => BitVec.eq_of_toNat_eq (by simpa [Snapshot.elem, hj] using h .motor j hj)
  · exact Vector.ext fun j hj => BitVec.eq_of_toNat_eq (by simpa [Snapshot.elem, hj] using h .switch j hj)
  · exact Vector.ext fun j hj => BitVec.eq_of_toNat_eq (by simpa [Snapshot.elem, hj] using h .pot j hj)
  · exact BitVec.eq_of_toNat_eq (h .diode 0 (by decide))
  · exact BitVec.eq_of_toNat_eq (h .temp 0 (by decide))
  · exact Vector.ext fun j hj => BitVec.eq_of_toNat_eq (by simpa [Snapshot.elem, hj] using h .imu j hj)

/-! ## The bytes of a field -/

theorem flatMap_range_length (ew n : Nat) (e : Nat → List Byte) (h : ∀ j, (e j).length = ew) :
    ((List.range n).flatMap e).length = n * ew := by
  induction n with
  | zero => simp
  | succ n ih => simp [List.range_succ, ih, h, Nat.succ_mul]

@[simp] theorem Snapshot.fieldBytes_length (r : Snapshot) (f : Field) : (r.fieldBytes f).length = f.width :=
  flatMap_range_length _ _ _ fun _ => leBytes_length _ _

/-- The elements cut from a field's bytes are the field's elements. -/
theorem leElems_fieldBytes (r : Snapshot) (f : Field) (rest : List Byte) :
    leElems f.elemWidth f.count (r.fieldBytes f ++ rest) = (List.range f.count).map (r.elem f) := by
  have h : r.fieldBytes f = ((List.range f.count).map (r.elem f)).flatMap fun v => leBytes v f.elemWidth := by
    simp [Snapshot.fieldBytes, List.flatMap_map]
  have h2 := leElems_flatMap_leBytes f.elemWidth ((List.range f.count).map (r.elem f)) rest
  rw [List.length_map, List.length_range] at h2
  rw [h, h2, List.map_map]
  exact List.map_congr_left fun j _ => Nat.mod_eq_of_lt (Snapshot.elem_lt r f j)

/-- An element read after a field is stored from bytes. -/
theorem Snapshot.elem_storeField (r : Snapshot) (f : Field) (s : List Byte) {g : Field} {k : Nat} (hk : k < g.count) :
    (r.storeField f s).elem g k =
      if f = g then leValue ((s.drop (k * f.elemWidth)).take f.elemWidth) else r.elem g k := by
  rw [Snapshot.storeField, Snapshot.elem_storeElems _ _ _ _ hk (by simp)]
  by_cases hfg : f = g
  · subst hfg
    have hl : leValue ((s.drop (k * f.elemWidth)).take f.elemWidth) < 256 ^ f.elemWidth :=
      Nat.lt_of_lt_of_le (leValue_lt _) (Nat.pow_le_pow_right (by omega) (by simp))
    rw [if_pos ⟨rfl, by omega, by simpa using hk⟩, Nat.sub_zero, leElems_getElem? hk, Option.getD_some, Nat.mod_eq_of_lt hl,
      if_pos rfl]
  · simp [hfg]

/-! ## Payloads -/

/-- A payload with mask `m` is `Req(m)` bytes long (30_encoding.md R64). -/
@[simp] theorem payload_length (m : Byte) (r : Snapshot) : (payload m r).length = req m := by
  simp [payload, req, Nat.add_comm]

theorem req_pos (m : Byte) : 1 ≤ req m := Nat.le_add_right _ _

theorem sum_width_filter_le (p : Field → Bool) (fs : List Field) :
    ((fs.filter p).map Field.width).sum ≤ (fs.map Field.width).sum := by
  induction fs with
  | nil => simp
  | cons f fs ih => rw [List.filter_cons]; split <;> simp <;> omega

/-- No payload is longer than 47 bytes (30_encoding.md R64). -/
theorem req_le (m : Byte) : req m ≤ 47 := by
  have := sum_width_filter_le (fun f => m.getLsbD f.index) Field.inOrder
  have total : (Field.inOrder.map Field.width).sum = 46 := rfl
  unfold req presentFields
  omega

@[simp] theorem unpackFields_nil (bs : List Byte) (r : Snapshot) : unpackFields [] bs r = r := rfl

@[simp] theorem unpackFields_cons (f : Field) (fs : List Field) (bs : List Byte) (r : Snapshot) :
    unpackFields (f :: fs) bs r = unpackFields fs (bs.drop f.width) (r.storeField f (bs.take f.width)) := rfl

end Sys2Proof.Machine
end

