-- ==== Sys2Proof/Laws/State.lean ====
section
/-! SUPPORT. Laws/State.lean: every field of the state after every update, so that no proof unfolds an update. -/

namespace Sys2Proof.Machine

variable (s : State)

@[simp] theorem State.setRegs_regs (r : Snapshot) : (s.setRegs r).regs = r := rfl
@[simp] theorem State.setRegs_mask (r : Snapshot) : (s.setRegs r).mask = s.mask := rfl
@[simp] theorem State.setRegs_cursor (r : Snapshot) : (s.setRegs r).cursor = s.cursor := rfl
@[simp] theorem State.setRegs_pbuf (r : Snapshot) : (s.setRegs r).pbuf = s.pbuf := rfl
@[simp] theorem State.setRegs_port (r : Snapshot) : (s.setRegs r).port = s.port := rfl
@[simp] theorem State.setRegs_params (r : Snapshot) : (s.setRegs r).params = s.params := rfl
@[simp] theorem State.setRegs_epoch (r : Snapshot) : (s.setRegs r).epoch = s.epoch := rfl
@[simp] theorem State.setRegs_host (r : Snapshot) : (s.setRegs r).host = s.host := rfl
@[simp] theorem State.setRegs_responses (r : Snapshot) : (s.setRegs r).responses = s.responses := rfl

@[simp] theorem State.setCursor_regs (c : Byte) : (s.setCursor c).regs = s.regs := rfl
@[simp] theorem State.setCursor_mask (c : Byte) : (s.setCursor c).mask = s.mask := rfl
@[simp] theorem State.setCursor_cursor (c : Byte) : (s.setCursor c).cursor = c := rfl
@[simp] theorem State.setCursor_pbuf (c : Byte) : (s.setCursor c).pbuf = s.pbuf := rfl
@[simp] theorem State.setCursor_port (c : Byte) : (s.setCursor c).port = s.port := rfl
@[simp] theorem State.setCursor_params (c : Byte) : (s.setCursor c).params = s.params := rfl
@[simp] theorem State.setCursor_epoch (c : Byte) : (s.setCursor c).epoch = s.epoch := rfl
@[simp] theorem State.setCursor_host (c : Byte) : (s.setCursor c).host = s.host := rfl
@[simp] theorem State.setCursor_responses (c : Byte) : (s.setCursor c).responses = s.responses := rfl

@[simp] theorem State.setPbuf_regs (m : List Host.Cell) : (s.setPbuf m).regs = s.regs := rfl
@[simp] theorem State.setPbuf_mask (m : List Host.Cell) : (s.setPbuf m).mask = s.mask := rfl
@[simp] theorem State.setPbuf_cursor (m : List Host.Cell) : (s.setPbuf m).cursor = s.cursor := rfl
@[simp] theorem State.setPbuf_pbuf (m : List Host.Cell) : (s.setPbuf m).pbuf = m := rfl
@[simp] theorem State.setPbuf_port (m : List Host.Cell) : (s.setPbuf m).port = s.port := rfl
@[simp] theorem State.setPbuf_params (m : List Host.Cell) : (s.setPbuf m).params = s.params := rfl
@[simp] theorem State.setPbuf_epoch (m : List Host.Cell) : (s.setPbuf m).epoch = s.epoch := rfl
@[simp] theorem State.setPbuf_host (m : List Host.Cell) : (s.setPbuf m).host = s.host := rfl
@[simp] theorem State.setPbuf_responses (m : List Host.Cell) : (s.setPbuf m).responses = s.responses := rfl

@[simp] theorem State.setHost_regs (e : List HostEvent) : (s.setHost e).regs = s.regs := rfl
@[simp] theorem State.setHost_mask (e : List HostEvent) : (s.setHost e).mask = s.mask := rfl
@[simp] theorem State.setHost_cursor (e : List HostEvent) : (s.setHost e).cursor = s.cursor := rfl
@[simp] theorem State.setHost_pbuf (e : List HostEvent) : (s.setHost e).pbuf = s.pbuf := rfl
@[simp] theorem State.setHost_port (e : List HostEvent) : (s.setHost e).port = s.port := rfl
@[simp] theorem State.setHost_params (e : List HostEvent) : (s.setHost e).params = s.params := rfl
@[simp] theorem State.setHost_epoch (e : List HostEvent) : (s.setHost e).epoch = s.epoch := rfl
@[simp] theorem State.setHost_host (e : List HostEvent) : (s.setHost e).host = e := rfl
@[simp] theorem State.setHost_responses (e : List HostEvent) : (s.setHost e).responses = s.responses := rfl

@[simp] theorem State.accept_regs (f : Frame) (e : List HostEvent) : (s.accept f e).regs = s.regs := rfl
@[simp] theorem State.accept_mask (f : Frame) (e : List HostEvent) : (s.accept f e).mask = s.mask := rfl
@[simp] theorem State.accept_cursor (f : Frame) (e : List HostEvent) : (s.accept f e).cursor = s.cursor := rfl
@[simp] theorem State.accept_pbuf (f : Frame) (e : List HostEvent) : (s.accept f e).pbuf = s.pbuf := rfl
@[simp] theorem State.accept_port (f : Frame) (e : List HostEvent) : (s.accept f e).port = .busy f := rfl
@[simp] theorem State.accept_params (f : Frame) (e : List HostEvent) : (s.accept f e).params = s.params := rfl
@[simp] theorem State.accept_epoch (f : Frame) (e : List HostEvent) : (s.accept f e).epoch = s.epoch := rfl
@[simp] theorem State.accept_host (f : Frame) (e : List HostEvent) : (s.accept f e).host = e := rfl
@[simp] theorem State.accept_responses (f : Frame) (e : List HostEvent) : (s.accept f e).responses = s.responses := rfl

@[simp] theorem State.markPresent_regs (f : Field) : (s.markPresent f).regs = s.regs := rfl
@[simp] theorem State.markPresent_mask (f : Field) : (s.markPresent f).mask = s.mask ||| fieldBit f := rfl
@[simp] theorem State.markPresent_cursor (f : Field) : (s.markPresent f).cursor = s.cursor := rfl
@[simp] theorem State.markPresent_pbuf (f : Field) : (s.markPresent f).pbuf = s.pbuf := rfl
@[simp] theorem State.markPresent_port (f : Field) : (s.markPresent f).port = s.port := rfl
@[simp] theorem State.markPresent_params (f : Field) : (s.markPresent f).params = s.params := rfl
@[simp] theorem State.markPresent_epoch (f : Field) : (s.markPresent f).epoch = s.epoch := rfl
@[simp] theorem State.markPresent_host (f : Field) : (s.markPresent f).host = s.host := rfl
@[simp] theorem State.markPresent_responses (f : Field) : (s.markPresent f).responses = s.responses := rfl

@[simp] theorem State.clearPresent_regs (m : Byte) : (s.clearPresent m).regs = s.regs := rfl
@[simp] theorem State.clearPresent_mask (m : Byte) : (s.clearPresent m).mask = s.mask &&& ~~~m := rfl
@[simp] theorem State.clearPresent_cursor (m : Byte) : (s.clearPresent m).cursor = s.cursor := rfl
@[simp] theorem State.clearPresent_pbuf (m : Byte) : (s.clearPresent m).pbuf = s.pbuf := rfl
@[simp] theorem State.clearPresent_port (m : Byte) : (s.clearPresent m).port = s.port := rfl
@[simp] theorem State.clearPresent_params (m : Byte) : (s.clearPresent m).params = s.params := rfl
@[simp] theorem State.clearPresent_epoch (m : Byte) : (s.clearPresent m).epoch = s.epoch := rfl
@[simp] theorem State.clearPresent_host (m : Byte) : (s.clearPresent m).host = s.host := rfl
@[simp] theorem State.clearPresent_responses (m : Byte) : (s.clearPresent m).responses = s.responses := rfl

@[simp] theorem State.setMask_regs (m : Byte) : (s.setMask m).regs = s.regs := rfl
@[simp] theorem State.setMask_mask (m : Byte) : (s.setMask m).mask = m := rfl
@[simp] theorem State.setMask_cursor (m : Byte) : (s.setMask m).cursor = s.cursor := rfl
@[simp] theorem State.setMask_pbuf (m : Byte) : (s.setMask m).pbuf = s.pbuf := rfl
@[simp] theorem State.setMask_port (m : Byte) : (s.setMask m).port = s.port := rfl
@[simp] theorem State.setMask_params (m : Byte) : (s.setMask m).params = s.params := rfl
@[simp] theorem State.setMask_epoch (m : Byte) : (s.setMask m).epoch = s.epoch := rfl
@[simp] theorem State.setMask_host (m : Byte) : (s.setMask m).host = s.host := rfl
@[simp] theorem State.setMask_responses (m : Byte) : (s.setMask m).responses = s.responses := rfl

@[simp] theorem State.respond_regs (f : Frame) : (s.respond f).regs = s.regs := rfl
@[simp] theorem State.respond_mask (f : Frame) : (s.respond f).mask = s.mask := rfl
@[simp] theorem State.respond_cursor (f : Frame) : (s.respond f).cursor = s.cursor := rfl
@[simp] theorem State.respond_pbuf (f : Frame) : (s.respond f).pbuf = s.pbuf := rfl
@[simp] theorem State.respond_port (f : Frame) : (s.respond f).port = .idle := rfl
@[simp] theorem State.respond_params (f : Frame) : (s.respond f).params = s.params := rfl
@[simp] theorem State.respond_epoch (f : Frame) : (s.respond f).epoch = s.epoch := rfl
@[simp] theorem State.respond_host (f : Frame) : (s.respond f).host = s.host := rfl
@[simp] theorem State.respond_responses (f : Frame) : (s.respond f).responses = s.responses ++ [f] := rfl

@[simp] theorem State.resetBlock_regs : s.resetBlock.regs = Snapshot.zero := rfl
@[simp] theorem State.resetBlock_mask : s.resetBlock.mask = 0 := rfl
@[simp] theorem State.resetBlock_cursor : s.resetBlock.cursor = 0 := rfl
@[simp] theorem State.resetBlock_pbuf : s.resetBlock.pbuf = [] := rfl
@[simp] theorem State.resetBlock_port : s.resetBlock.port = .idle := rfl
@[simp] theorem State.resetBlock_params : s.resetBlock.params = s.params := rfl
@[simp] theorem State.resetBlock_epoch : s.resetBlock.epoch = s.epoch + 1 := rfl
@[simp] theorem State.resetBlock_host : s.resetBlock.host = s.host := rfl
@[simp] theorem State.resetBlock_responses : s.resetBlock.responses = s.responses := rfl

@[simp] theorem State.withRequest_regs (f : Frame) : (s.withRequest f).regs = s.regs := rfl
@[simp] theorem State.withRequest_mask (f : Frame) : (s.withRequest f).mask = s.mask := rfl
@[simp] theorem State.withRequest_cursor (f : Frame) : (s.withRequest f).cursor = s.cursor := rfl
@[simp] theorem State.withRequest_pbuf (f : Frame) : (s.withRequest f).pbuf = s.pbuf := rfl
@[simp] theorem State.withRequest_port (f : Frame) : (s.withRequest f).port = .busy f := rfl
@[simp] theorem State.withRequest_params (f : Frame) : (s.withRequest f).params = s.params := rfl
@[simp] theorem State.withRequest_epoch (f : Frame) : (s.withRequest f).epoch = s.epoch := rfl
@[simp] theorem State.withRequest_host (f : Frame) : (s.withRequest f).host = .awaitResponse :: s.host := rfl
@[simp] theorem State.withRequest_responses (f : Frame) : (s.withRequest f).responses = s.responses := rfl

/-- Raising an error is delivering its response. -/
@[simp] theorem State.raise_eq (e : CmdError) : s.raise e = s.respond e.frame := rfl

/-- Placing a table word is placing its frame. -/
@[simp] theorem State.withFetchWord_eq (nbits w : Nat) : s.withFetchWord nbits w = s.withRequest (tableFrame nbits w) := rfl

/-- Two states with the same fields are the same state. -/
theorem State.ext_fields {s t : State} (h1 : s.regs = t.regs) (h2 : s.mask = t.mask) (h3 : s.cursor = t.cursor)
    (h4 : s.pbuf = t.pbuf) (h5 : s.port = t.port) (h6 : s.params = t.params) (h7 : s.epoch = t.epoch)
    (h8 : s.host = t.host) (h9 : s.responses = t.responses) : s = t := by
  cases s; cases t; simp_all

/-! The buffer's bytes depend on the buffer and the number of resets alone. -/

theorem State.pbufByte_congr {s t : State} (hp : s.pbuf = t.pbuf) (he : s.epoch = t.epoch) (a : Nat) :
    s.pbufByte a = t.pbufByte a := by
  unfold State.pbufByte; rw [hp, he]

@[simp] theorem State.setRegs_pbufByte (r : Snapshot) (a : Nat) : (s.setRegs r).pbufByte a = s.pbufByte a := rfl
@[simp] theorem State.setCursor_pbufByte (c : Byte) (a : Nat) : (s.setCursor c).pbufByte a = s.pbufByte a := rfl
@[simp] theorem State.setHost_pbufByte (e : List HostEvent) (a : Nat) : (s.setHost e).pbufByte a = s.pbufByte a := rfl
@[simp] theorem State.accept_pbufByte (f : Frame) (e : List HostEvent) (a : Nat) : (s.accept f e).pbufByte a = s.pbufByte a := rfl
@[simp] theorem State.markPresent_pbufByte (f : Field) (a : Nat) : (s.markPresent f).pbufByte a = s.pbufByte a := rfl
@[simp] theorem State.clearPresent_pbufByte (m : Byte) (a : Nat) : (s.clearPresent m).pbufByte a = s.pbufByte a := rfl
@[simp] theorem State.setMask_pbufByte (m : Byte) (a : Nat) : (s.setMask m).pbufByte a = s.pbufByte a := rfl
@[simp] theorem State.respond_pbufByte (f : Frame) (a : Nat) : (s.respond f).pbufByte a = s.pbufByte a := rfl
@[simp] theorem State.withRequest_pbufByte (f : Frame) (a : Nat) : (s.withRequest f).pbufByte a = s.pbufByte a := rfl

@[simp] theorem State.setPbuf_pbufByte (m : List Host.Cell) (a : Nat) :
    (s.setPbuf m).pbufByte a = (Memory.read m a).getD (Config.pbufDraw s.epoch a) := rfl

/-- After a reset every byte is the draw of that reset. -/
@[simp] theorem State.resetBlock_pbufByte (a : Nat) : s.resetBlock.pbufByte a = Config.pbufDraw (s.epoch + 1) a := rfl

end Sys2Proof.Machine
end

