-- ==== Sys2Proof/Laws/Memory.lean ====
section
/-! SUPPORT. Laws/Memory.lean: what the buffer operations do, said once: read after write, the canonical form kept, and
the store that falls inside the buffer or is not made at all (20_memory.md R42). -/

namespace Sys2Proof.Machine

theorem Memory.read_write (m : Memory) (x y : Nat) (b : Byte) :
    Memory.read (Memory.write m x b) y = if x = y then some b else Memory.read m y := by
  induction m with
  | nil => simp [Memory.write, Memory.read]
  | cons c m ih =>
    obtain ⟨a, v⟩ := c
    simp only [Memory.write]
    split
    · simp [Memory.read]
    · split
      · next h => subst h; by_cases hy : x = y <;> simp [Memory.read, hy]
      · next h =>
        simp only [Memory.read, ih]
        by_cases ha : a = y
        · simp [ha, show x ≠ y from fun e => h (e.trans ha.symm)]
        · simp [ha]

/-- The offsets listed after a write are those listed before and the one written. -/
theorem Memory.mem_write {m : Memory} {x : Nat} {b : Byte} {c : Host.Cell} (h : c ∈ Memory.write m x b) :
    c.1 = x ∨ c ∈ m := by
  induction m with
  | nil => simp [Memory.write] at h; simp [h]
  | cons d m ih =>
    obtain ⟨a, v⟩ := d
    simp only [Memory.write] at h
    split at h
    · simp only [List.mem_cons] at h ⊢; rcases h with h | h | h <;> simp [h]
    · split at h
      · simp only [List.mem_cons] at h ⊢; rcases h with h | h <;> simp [h]
      · simp only [List.mem_cons] at h ⊢
        rcases h with h | h
        · simp [h]
        · rcases ih h with h | h <;> simp [h]

theorem Memory.write_wf {m : Memory} (h : Memory.wf m) (x : Nat) (b : Byte) : Memory.wf (Memory.write m x b) := by
  induction m with
  | nil => simp [Memory.write]
  | cons c m ih =>
    obtain ⟨a, v⟩ := c
    have hc := List.pairwise_cons.mp h
    simp only [Memory.write]
    split
    · next hx =>
      refine List.pairwise_cons.mpr ⟨fun d hd => ?_, h⟩
      rcases List.mem_cons.mp hd with hd | hd
      · simpa [hd] using hx
      · exact Nat.lt_trans hx (hc.1 d hd)
    · split
      · next hx => subst hx; exact List.pairwise_cons.mpr ⟨hc.1, hc.2⟩
      · next h1 h2 =>
        refine List.pairwise_cons.mpr ⟨fun d hd => ?_, ih hc.2⟩
        rcases Memory.mem_write hd with hd | hd
        · show a < d.1; omega
        · exact hc.1 d hd

theorem Memory.writeBytes_wf {m : Memory} (h : Memory.wf m) (off : Nat) (bs : List Byte) :
    Memory.wf (Memory.writeBytes m off bs) := by
  induction bs generalizing m off with
  | nil => exact h
  | cons b bs ih => exact ih (Memory.write_wf h off b) (off + 1)

/-- The byte read after bytes are stored: one of them inside their range, the byte before outside it. -/
theorem Memory.read_writeBytes (m : Memory) (off : Nat) (bs : List Byte) (y : Nat) :
    Memory.read (Memory.writeBytes m off bs) y =
      if off ≤ y ∧ y < off + bs.length then bs[y - off]? else Memory.read m y := by
  induction bs generalizing m off with
  | nil => simp [Memory.writeBytes]
  | cons b bs ih =>
    simp only [Memory.writeBytes, ih, Memory.read_write, List.length_cons]
    by_cases hy : off = y
    · subst hy; simp
    · by_cases hr : off + 1 ≤ y ∧ y < off + 1 + bs.length
      · rw [if_pos hr, if_pos (by omega), show y - off = (y - (off + 1)) + 1 by omega, List.getElem?_cons_succ]
      · rw [if_neg hr, if_neg hy, if_neg (by omega)]

/-- The offsets listed after bytes are stored are those listed before and those of the bytes. -/
theorem Memory.mem_writeBytes {m : Memory} {off : Nat} {bs : List Byte} {c : Host.Cell}
    (h : c ∈ Memory.writeBytes m off bs) : c.1 < off + bs.length ∨ c ∈ m := by
  induction bs generalizing m off with
  | nil => exact .inr h
  | cons b bs ih =>
    rcases ih h with h | h
    · exact .inl (by simp only [List.length_cons]; omega)
    · rcases Memory.mem_write h with h | h
      · exact .inl (by simp only [List.length_cons]; omega)
      · exact .inr h

/-! ## storePbuf -/

/-- A store is made whole inside the buffer, or not at all. -/
theorem State.storePbuf_cases (s : State) (off : Nat) (bs : List Byte) :
    (off + bs.length ≤ s.params.cap ∧ s.storePbuf off bs = some (s.setPbuf (Memory.writeBytes s.pbuf off bs))) ∨
    (s.params.cap < off + bs.length ∧ s.storePbuf off bs = none) := by
  unfold State.storePbuf
  split
  · exact .inl ⟨‹_›, rfl⟩
  · exact .inr ⟨by omega, rfl⟩

theorem State.storePbuf_eq_some {s t : State} {off : Nat} {bs : List Byte} (h : s.storePbuf off bs = some t) :
    off + bs.length ≤ s.params.cap ∧ t = s.setPbuf (Memory.writeBytes s.pbuf off bs) := by
  rcases s.storePbuf_cases off bs with ⟨h1, h2⟩ | ⟨-, h2⟩ <;> rw [h2] at h
  · exact ⟨h1, (Option.some.inj h).symm⟩
  · cases h

theorem State.storePbuf_eq_none {s : State} {off : Nat} {bs : List Byte} (h : s.storePbuf off bs = none) :
    s.params.cap < off + bs.length := by
  rcases s.storePbuf_cases off bs with ⟨-, h2⟩ | ⟨h1, -⟩
  · rw [h2] at h; cases h
  · exact h1

theorem State.storePbuf_of_le {s : State} {off : Nat} {bs : List Byte} (h : off + bs.length ≤ s.params.cap) :
    s.storePbuf off bs = some (s.setPbuf (Memory.writeBytes s.pbuf off bs)) := if_pos h

theorem State.storePbuf_of_lt {s : State} {off : Nat} {bs : List Byte} (h : s.params.cap < off + bs.length) :
    s.storePbuf off bs = none := if_neg (by omega)

/-- The bytes read after a store. -/
theorem State.setPbuf_writeBytes_pbufByte (s : State) (off : Nat) (bs : List Byte) (a : Nat) :
    (s.setPbuf (Memory.writeBytes s.pbuf off bs)).pbufByte a =
      if off ≤ a ∧ a < off + bs.length then bs[a - off]?.getD 0 else s.pbufByte a := by
  rw [State.setPbuf_pbufByte, Memory.read_writeBytes]
  split
  · next h =>
    have hl : a - off < bs.length := by omega
    simp [List.getElem?_eq_getElem hl]
  · rfl

end Sys2Proof.Machine
end

