-- ==== Sys2Proof/Laws/Commands.lean ====
section
/-! SUPPORT. Laws/Commands.lean: what a command can do, said once: every command is `runCommand` of its body, a body ends in
one of the ways listed here, and what no body touches stays as it was. -/

namespace Sys2Proof.Machine

/-- The body of each command. -/
def bodyOf : Instr → Body
  | .setMotor vs => setField .motor (vs.map BitVec.toNat)
  | .setSwitch vs => setField .switch (vs.map BitVec.toNat)
  | .setPot vs => setField .pot (vs.map BitVec.toNat)
  | .setDiode vs => setField .diode (vs.map BitVec.toNat)
  | .setTemp vs => setField .temp (vs.map BitVec.toNat)
  | .setImu vs => setField .imu (vs.map BitVec.toNat)
  | .pack => packBody
  | .unpack d => unpackBody d
  | .appendByte b => appendBody b
  | .readText ts => readTextBody ts
  | .getSensors => fun s => .ok (s, s.mask :: Field.inOrder.flatMap s.regs.fieldBytes)
  | .getPayload => fun s => .ok (s, s.pbufBytes)

/-- Every command runs its body all-or-nothing (00_scope.md R14). -/
theorem exec_eq_runCommand (i : Instr) (s : State) : exec i s = runCommand (bodyOf i) s := by cases i <;> rfl

theorem runCommand_of_ok {body : Body} {s u : State} {res : List Byte} (h : body s = .ok (u, res)) :
    runCommand body s = .next (u.respond (okFrame res)) := by simp [runCommand, h]

theorem runCommand_of_error {body : Body} {s : State} {e : CmdError} (h : body s = .error e) :
    runCommand body s = .next (s.respond e.frame) := by simp [runCommand, h]

/-- How a command can end. -/
theorem runCommand_cases (body : Body) (s : State) :
    (∃ u res, body s = .ok (u, res) ∧ runCommand body s = .next (u.respond (okFrame res))) ∨
    (∃ e, body s = .error e ∧ runCommand body s = .next (s.respond e.frame)) := by
  rcases h : body s with e | ⟨u, res⟩
  · exact .inr ⟨e, rfl, runCommand_of_error h⟩
  · exact .inl ⟨u, res, rfl, runCommand_of_ok h⟩

/-! ## How each body can end -/

theorem setField_cases (f : Field) (vs : List Nat) (s : State) :
    (vs.length = f.count ∧ setField f vs s = .ok ((s.setRegs (Snapshot.storeElems f 0 vs s.regs)).markPresent f, [])) ∨
    (vs.length ≠ f.count ∧ setField f vs s = .error (.invalidFieldCount f.count vs.length)) := by
  unfold setField
  split
  · exact .inl ⟨‹_›, rfl⟩
  · exact .inr ⟨‹_›, rfl⟩

theorem packBody_cases (s : State) :
    (req (fieldBits s.mask) ≤ s.params.cap ∧
      packBody s = .ok ((s.setPbuf (Memory.writeBytes s.pbuf 0 (payload (fieldBits s.mask) s.regs))).clearPresent
        (fieldBits s.mask), [BitVec.ofNat 8 (req (fieldBits s.mask))])) ∨
    (s.params.cap < req (fieldBits s.mask) ∧ packBody s = .error (.outOfCapacity (req (fieldBits s.mask)))) := by
  rcases s.storePbuf_cases 0 (payload (fieldBits s.mask) s.regs) with ⟨h1, h2⟩ | ⟨h1, h2⟩ <;>
    rw [payload_length, Nat.zero_add] at h1
  · exact .inl ⟨h1, by simp only [packBody, h2]⟩
  · exact .inr ⟨h1, by simp only [packBody, h2]⟩

theorem unpackBody_cases (d : List Byte) (s : State) :
    (d = [] ∧ unpackBody d s = .error (.truncatedInput 1 0)) ∨
    (∃ d0 bs, d = d0 :: bs ∧ d.length < req (fieldBits d0) ∧
      unpackBody d s = .error (.truncatedInput (req (fieldBits d0)) d.length)) ∨
    (∃ d0 bs, d = d0 :: bs ∧ req (fieldBits d0) ≤ d.length ∧
      unpackBody d s = .ok ((s.setRegs (unpackFields (presentFields (fieldBits d0)) bs s.regs)).setMask (fieldBits d0),
        [fieldBits d0])) := by
  rcases d with _ | ⟨d0, bs⟩
  · exact .inl ⟨rfl, rfl⟩
  · by_cases h : (d0 :: bs).length < req (fieldBits d0)
    · exact .inr (.inl ⟨d0, bs, rfl, h, by simp only [unpackBody, if_pos h]⟩)
    · exact .inr (.inr ⟨d0, bs, rfl, by omega, by simp only [unpackBody, if_neg h]⟩)

theorem appendBody_cases (b : Byte) (s : State) :
    (b = s.params.sentinel ∧ appendBody b s = .ok (s.setCursor 0, [0#8])) ∨
    (b ≠ s.params.sentinel ∧ s.cursor.toNat < s.params.cap ∧
      appendBody b s = .ok ((s.setPbuf (Memory.writeBytes s.pbuf s.cursor.toNat [b])).setCursor (s.cursor + 1),
        [s.cursor + 1])) ∨
    (b ≠ s.params.sentinel ∧ s.params.cap ≤ s.cursor.toNat ∧
      appendBody b s = .error (.outOfCapacity (s.cursor.toNat + 1))) := by
  by_cases hb : b = s.params.sentinel
  · exact .inl ⟨hb, by simp only [appendBody, if_pos hb]⟩
  · rcases s.storePbuf_cases s.cursor.toNat [b] with ⟨h1, h2⟩ | ⟨h1, h2⟩ <;>
      simp only [List.length_cons, List.length_nil] at h1
    · exact .inr (.inl ⟨hb, by omega, by simp only [appendBody, if_neg hb, h2]⟩)
    · exact .inr (.inr ⟨hb, by omega, by simp only [appendBody, if_neg hb, h2]⟩)

theorem readTextBody_cases (ts : List Token) (s : State) :
    (∃ k, readTextBody ts s = .error (.malformedToken k)) ∨
    (∃ t0 rest mv r, ts = t0 :: rest ∧ parseUInt t0 255 = some mv ∧
      readFields (presentFields (fieldBits (BitVec.ofNat 8 mv))) 1 rest s.regs = .ok r ∧
      readTextBody ts s = .ok ((s.setRegs r).setMask (fieldBits (BitVec.ofNat 8 mv)), [fieldBits (BitVec.ofNat 8 mv)])) := by
  have elems : ∀ (f : Field) n j k us (r : Snapshot) e, readElems f n j k us r = .error e → ∃ k, e = .malformedToken k := by
    intro f n
    induction n with
    | zero => intro j k us r e h; cases h
    | succ n ih =>
      intro j k us r e h
      cases us with
      | nil => cases h; exact ⟨_, rfl⟩
      | cons u us =>
        simp only [readElems] at h
        split at h
        · cases h; exact ⟨_, rfl⟩
        · exact ih _ _ _ _ _ h
  have fields : ∀ (fs : List Field) k us (r : Snapshot) e, readFields fs k us r = .error e → ∃ k, e = .malformedToken k := by
    intro fs
    induction fs with
    | nil => intro k us r e h; cases h
    | cons f fs ih =>
      intro k us r e h
      simp only [readFields] at h
      split at h
      · next he => cases h; exact elems _ _ _ _ _ _ _ he
      · exact ih _ _ _ _ h
  rcases ts with _ | ⟨t0, rest⟩
  · exact .inl ⟨0, rfl⟩
  · rcases hp : parseUInt t0 255 with _ | mv
    · exact .inl ⟨0, by simp only [readTextBody, hp]⟩
    · rcases hr : readFields (presentFields (fieldBits (BitVec.ofNat 8 mv))) 1 rest s.regs with e | r
      · obtain ⟨k, rfl⟩ := fields _ _ _ _ _ hr
        exact .inl ⟨k, by simp only [readTextBody, hp, hr]⟩
      · exact .inr ⟨t0, rest, mv, r, rfl, hp, hr, by simp only [readTextBody, hp, hr]⟩

/-! ## What no body touches -/

/-- A body that ends well has changed no more than the field registers, the mask, the cursor and the buffer. -/
theorem bodyOf_ok_keeps {i : Instr} {s u : State} {res : List Byte} (h : bodyOf i s = .ok (u, res)) :
    u.port = s.port ∧ u.params = s.params ∧ u.epoch = s.epoch ∧ u.host = s.host ∧ u.responses = s.responses := by
  have setter : ∀ f vs, setField f vs s = .ok (u, res) →
      u.port = s.port ∧ u.params = s.params ∧ u.epoch = s.epoch ∧ u.host = s.host ∧ u.responses = s.responses := by
    intro f vs h
    rcases setField_cases f vs s with ⟨-, h2⟩ | ⟨-, h2⟩ <;> rw [h2] at h <;> cases h
    exact ⟨rfl, rfl, rfl, rfl, rfl⟩
  cases i with
  | setMotor vs => exact setter _ _ h
  | setSwitch vs => exact setter _ _ h
  | setPot vs => exact setter _ _ h
  | setDiode vs => exact setter _ _ h
  | setTemp vs => exact setter _ _ h
  | setImu vs => exact setter _ _ h
  | pack =>
    rcases packBody_cases s with ⟨-, h2⟩ | ⟨-, h2⟩ <;> rw [bodyOf, h2] at h <;> cases h
    exact ⟨rfl, rfl, rfl, rfl, rfl⟩
  | unpack d =>
    rcases unpackBody_cases d s with ⟨-, h2⟩ | ⟨_, _, -, -, h2⟩ | ⟨_, _, -, -, h2⟩ <;> rw [bodyOf, h2] at h <;> cases h
    exact ⟨rfl, rfl, rfl, rfl, rfl⟩
  | appendByte b =>
    rcases appendBody_cases b s with ⟨-, h2⟩ | ⟨-, -, h2⟩ | ⟨-, -, h2⟩ <;> rw [bodyOf, h2] at h <;> cases h <;>
      exact ⟨rfl, rfl, rfl, rfl, rfl⟩
  | readText ts =>
    rcases readTextBody_cases ts s with ⟨_, h2⟩ | ⟨_, _, _, _, -, -, -, h2⟩ <;> rw [bodyOf, h2] at h <;> cases h
    exact ⟨rfl, rfl, rfl, rfl, rfl⟩
  | getSensors => cases h; exact ⟨rfl, rfl, rfl, rfl, rfl⟩
  | getPayload => cases h; exact ⟨rfl, rfl, rfl, rfl, rfl⟩

/-! ## The step -/

/-- How a step can go: a reset, the completion of a command, the acceptance of a request, a wait that is over, or
nothing. -/
theorem step_cases (s : State) :
    (∃ rest, s.host = .reset :: rest ∧ step s = .next (s.setHost rest).resetBlock) ∨
    (∃ f, s.port = .busy f ∧ (∀ rest, s.host ≠ .reset :: rest) ∧
      step s = runRequest f (s.setHost (afterResponse s.host))) ∨
    (∃ f rest, s.port = .idle ∧ s.host = .request f :: rest ∧ step s = .next (s.accept f rest)) ∨
    (∃ rest, s.port = .idle ∧ s.host = .awaitResponse :: rest ∧ step s = .next (s.setHost rest)) ∨
    (s.port = .idle ∧ s.host = [] ∧ step s = .next s) := by
  rcases hp : s.port with _ | f <;> rcases hh : s.host with _ | ⟨e, rest⟩
  · simp [step, portStep, hp, hh]
  · cases e <;> simp [step, portStep, hp, hh]
  · simp [step, portStep, hp, hh]
  · cases e <;> simp [step, portStep, hp, hh]

end Sys2Proof.Machine
end

