-- ==== Sys2Proof/Laws/Float.lean ====
section
/-! SUPPORT. Laws/Float.lean: rounding, and that the limits on the power of ten (`clampExp`) change no result. -/

namespace Sys2Proof

/-- Rounding to the nearest natural number: never more than half a unit away, and even when exactly half a unit away. -/
theorem roundHalfEven_spec (a b : Nat) (hb : 0 < b) :
    2 * a ≤ 2 * (roundHalfEven a b * b) + b ∧ 2 * (roundHalfEven a b * b) ≤ 2 * a + b ∧
      ((2 * a = 2 * (roundHalfEven a b * b) + b ∨ 2 * (roundHalfEven a b * b) = 2 * a + b) → roundHalfEven a b % 2 = 0) := by
  have hdiv := Nat.div_add_mod' a b
  have hmod := Nat.mod_lt a hb
  have succ : (a / b + 1) * b = a / b * b + b := Nat.succ_mul _ _
  unfold roundHalfEven
  split
  · exact ⟨by omega, by omega, by omega⟩
  · split
    · rw [succ]; exact ⟨by omega, by omega, by omega⟩
    · rcases Nat.mod_two_eq_zero_or_one (a / b) with h | h
      · rw [h, Nat.add_zero]; exact ⟨by omega, by omega, fun _ => h⟩
      · rw [h, succ]; exact ⟨by omega, by omega, fun _ => by omega⟩

theorem roundMag_zero (d : Nat) : roundMag 0 d = 0 := by
  simp [roundMag, roundHalfEven, infinityMag]

/-- A value below half the smallest subnormal rounds to zero. -/
theorem roundMag_eq_zero {n d : Nat} (h : 2 * (n * 2 ^ 149) < d) : roundMag n d = 0 := by
  have hq : n * 2 ^ 149 / d = 0 := Nat.div_eq_of_lt (by omega)
  have ht : Nat.log2 (n * 2 ^ 149 / d) - 23 = 0 := by rw [hq]; rfl
  have hm : n * 2 ^ 149 % d = n * 2 ^ 149 := Nat.mod_eq_of_lt (by omega)
  have hr : roundHalfEven (n * 2 ^ 149) d = 0 := by
    unfold roundHalfEven
    rw [hm, if_pos h, hq]
  simp only [roundMag, ht, Nat.zero_mul, Nat.pow_zero, Nat.mul_one, hr]
  rfl

theorem le_log2_of_pow_le {k n : Nat} (h : 2 ^ k ≤ n) : k ≤ Nat.log2 n :=
  (Nat.le_log2 (Nat.ne_of_gt (Nat.lt_of_lt_of_le (Nat.two_pow_pos k) h))).mpr h

/-- A value of `2^132` or more rounds to infinity. -/
theorem roundMag_eq_infinity {n : Nat} (h : 2 ^ 132 ≤ n) : roundMag n 1 = infinityMag := by
  have hs : 2 ^ 281 ≤ n * 2 ^ 149 := by
    calc 2 ^ 281 = 2 ^ 132 * 2 ^ 149 := by rw [← Nat.pow_add]
      _ ≤ n * 2 ^ 149 := Nat.mul_le_mul_right _ h
  have hl := le_log2_of_pow_le (k := 281) hs
  have ht : 255 ≤ Nat.log2 (n * 2 ^ 149) - 23 := by omega
  simp only [roundMag, Nat.div_one]
  apply Nat.min_eq_right
  calc infinityMag = 255 * 2 ^ 23 := rfl
    _ ≤ (Nat.log2 (n * 2 ^ 149) - 23) * 2 ^ 23 := Nat.mul_le_mul_right _ ht
    _ ≤ _ := Nat.le_add_right _ _

theorem decimalMag_of_large {m : Nat} {e : Int} (he : 40 ≤ e) : decimalMag m e = if m = 0 then 0 else infinityMag := by
  obtain ⟨k, rfl⟩ := Int.eq_ofNat_of_zero_le (Int.le_trans (by decide) he)
  show roundMag (m * 10 ^ k) 1 = _
  split
  · next h => rw [h, Nat.zero_mul, roundMag_zero]
  · next h =>
    apply roundMag_eq_infinity
    calc 2 ^ 132 ≤ 1 * 10 ^ 40 := by norm_num
      _ ≤ m * 10 ^ k := Nat.mul_le_mul (by omega) (Nat.pow_le_pow_right (by omega) (by omega))

theorem decimalMag_of_small {m digits : Nat} {e : Int} (hm : m < 10 ^ digits) (he : e ≤ -((digits : Int) + 50)) :
    decimalMag m e = 0 := by
  obtain ⟨k, rfl⟩ := Int.eq_negSucc_of_lt_zero (show e < 0 by omega)
  show roundMag m (10 ^ (k + 1)) = 0
  apply roundMag_eq_zero
  have hk : digits + 50 ≤ k + 1 := by rw [Int.negSucc_eq] at he; omega
  calc 2 * (m * 2 ^ 149) = m * 2 ^ 150 := by rw [Nat.pow_succ]; ac_rfl
    _ < 10 ^ digits * 2 ^ 150 := Nat.mul_lt_mul_of_pos_right hm (Nat.two_pow_pos 150)
    _ ≤ 10 ^ digits * 10 ^ 50 := Nat.mul_le_mul_left _ (by norm_num)
    _ = 10 ^ (digits + 50) := (Nat.pow_add 10 digits 50).symm
    _ ≤ 10 ^ (k + 1) := Nat.pow_le_pow_right (by omega) hk

/-- The limits change no result: the conversion is the exact one for every mantissa of `digits` digits. -/
theorem decimalMag_clampExp {m digits : Nat} (e : Int) (hm : m < 10 ^ digits) :
    decimalMag m (clampExp digits e) = decimalMag m e := by
  by_cases hhi : 40 ≤ e
  · rw [show clampExp digits e = 40 by unfold clampExp; omega, decimalMag_of_large hhi,
      decimalMag_of_large (Int.le_refl 40)]
  · by_cases hlo : e ≤ -((digits : Int) + 50)
    · rw [decimalMag_of_small hm hlo, decimalMag_of_small hm (by unfold clampExp; omega)]
    · rw [show clampExp digits e = e by unfold clampExp; omega]

/-- The value of digits is below ten to their number. -/
theorem digitsValue_lt {t : List Byte} (h : t.all isDigit = true) : digitsValue t < 10 ^ t.length := by
  have step : ∀ (t : List Byte) (v : Nat), t.all isDigit = true →
      t.foldl (fun v b => 10 * v + (b.toNat - 0x30)) v < (v + 1) * 10 ^ t.length := by
    intro t
    induction t with
    | nil => intro v _; simp
    | cons b t ih =>
      intro v h
      rw [List.all_cons, Bool.and_eq_true] at h
      have hb : b.toNat - 0x30 ≤ 9 := by
        have := h.1
        simp only [isDigit, Bool.and_eq_true, decide_eq_true_eq] at this
        omega
      calc _ < (10 * v + (b.toNat - 0x30) + 1) * 10 ^ t.length := ih _ h.2
        _ ≤ ((v + 1) * 10) * 10 ^ t.length := Nat.mul_le_mul_right _ (by omega)
        _ = (v + 1) * 10 ^ (b :: t).length := by rw [List.length_cons, Nat.pow_succ']; ac_rfl
  simpa [digitsValue] using step t 0 h

end Sys2Proof
end

