-- ==== Sys2Proof/Laws/PerInstr.lean ====
section
/-! SUPPORT. Laws/PerInstr.lean: statements about every instruction as syntax, one lemma for each constructor. The family
EncodedLength says that the frame of a command has the implied length of 30_encoding.md R75. -/

namespace Sys2Proof.Laws.EncodedLength

/-- The "implied length" column of 30_encoding.md R75. -/
def impliedLength : Instr → Nat
  | .setMotor vs => 2 + 2 * vs.length
  | .setSwitch vs => 2 + vs.length
  | .setPot vs => 2 + 2 * vs.length
  | .setDiode vs => 2 + 2 * vs.length
  | .setTemp vs => 2 + 4 * vs.length
  | .setImu vs => 2 + 4 * vs.length
  | .pack => 1
  | .unpack d => 2 + d.length
  | .appendByte _ => 2
  | .readText ts => 2 + (ts.map fun t => 1 + t.length).sum
  | .getSensors => 1
  | .getPayload => 1

/-- The frame of a command has its implied length. -/
def Statement (i : Instr) : Prop := (encode i).length = impliedLength i

theorem encodeElems_length (op : Byte) (ew : Nat) (vs : List Nat) :
    (encodeElems op ew vs).length = 2 + ew * vs.length := by
  simp only [encodeElems, List.length_cons, flatMap_leBytes_length]
  rw [Nat.mul_comm]; omega

theorem setMotor (vs : List Half) : Statement (.setMotor vs) :=
  (encodeElems_length _ _ _).trans (by rw [List.length_map]; rfl)

theorem setSwitch (vs : List Byte) : Statement (.setSwitch vs) :=
  (encodeElems_length _ _ _).trans (by rw [List.length_map, Nat.one_mul]; rfl)

theorem setPot (vs : List Half) : Statement (.setPot vs) :=
  (encodeElems_length _ _ _).trans (by rw [List.length_map]; rfl)

theorem setDiode (vs : List Half) : Statement (.setDiode vs) :=
  (encodeElems_length _ _ _).trans (by rw [List.length_map]; rfl)

theorem setTemp (vs : List Pattern) : Statement (.setTemp vs) :=
  (encodeElems_length _ _ _).trans (by rw [List.length_map]; rfl)

theorem setImu (vs : List Pattern) : Statement (.setImu vs) :=
  (encodeElems_length _ _ _).trans (by rw [List.length_map]; rfl)

theorem pack : Statement .pack := rfl

theorem unpack (d : List Byte) : Statement (.unpack d) := by
  simp only [Statement, encode, impliedLength, List.length_cons]; omega

theorem appendByte (b : Byte) : Statement (.appendByte b) := rfl

theorem readText (ts : List Token) : Statement (.readText ts) := by
  have tokens : (ts.flatMap encodeToken).length = (ts.map fun t => 1 + t.length).sum := by
    induction ts with
    | nil => rfl
    | cons t ts ih =>
      simp only [List.flatMap_cons, List.length_append, ih, encodeToken, List.length_cons, List.map_cons, List.sum_cons]
      omega
  simp only [Statement, encode, impliedLength, List.length_cons, tokens]
  omega

theorem getSensors : Statement .getSensors := rfl

theorem getPayload : Statement .getPayload := rfl

end Sys2Proof.Laws.EncodedLength
end

