-- ==== Sys2Proof/Tests/Slice0.lean ====
section
/-! SUPPORT. Tests/Slice0.lean: the WellFormed smoke tests, decodings of words written out from the spec's encodings, one-step
tests whose expected values come from 95_test_vectors.md, and for each statement with hypotheses a witness that meets them
together. -/

namespace Sys2Proof.Tests

open Sys2Proof.Machine Sys2Proof.Claims

/-! ## WellFormed: each check refuses an ill-formed term (30_encoding.md R69, R71, R73: counts are 0..255) -/

theorem test_wf_refuses_256_motor_elements : Instr.wf (.setMotor (List.replicate 256 0)) = false := by decide +kernel
theorem test_wf_refuses_256_switch_elements : Instr.wf (.setSwitch (List.replicate 256 0)) = false := by decide +kernel
theorem test_wf_refuses_256_pot_elements : Instr.wf (.setPot (List.replicate 256 0)) = false := by decide +kernel
theorem test_wf_refuses_256_diode_elements : Instr.wf (.setDiode (List.replicate 256 0)) = false := by decide +kernel
theorem test_wf_refuses_256_temp_elements : Instr.wf (.setTemp (List.replicate 256 0)) = false := by decide +kernel
theorem test_wf_refuses_256_imu_elements : Instr.wf (.setImu (List.replicate 256 0)) = false := by decide +kernel
theorem test_wf_refuses_256_input_bytes : Instr.wf (.unpack (List.replicate 256 0)) = false := by decide +kernel
theorem test_wf_refuses_256_tokens : Instr.wf (.readText (List.replicate 256 [])) = false := by decide +kernel
theorem test_wf_refuses_token_of_256_bytes : Instr.wf (.readText [List.replicate 256 0]) = false := by decide +kernel
theorem test_wf_accepts_255_tokens : Instr.wf (.readText (List.replicate 255 [])) = true := by decide +kernel

/-! ## Decoding (30_encoding.md R69 to R73; the frames are those of 95_test_vectors.md L1, L2) -/

theorem test_decode_set_motor : decodeFrame [0x00, 0x04, 0x01, 0x00, 0x02, 0x00, 0x03, 0x00, 0xFF, 0xFF] =
    some (.setMotor [1, 2, 3, 0xFFFF]) := by decide
theorem test_decode_set_switch : decodeFrame [0x01, 0x04, 0x02, 0x00, 0xFF, 0x01] =
    some (.setSwitch [2, 0, 0xFF, 1]) := by decide
theorem test_decode_set_pot : decodeFrame [0x02, 0x02, 0x34, 0x12, 0xCD, 0xAB] = some (.setPot [0x1234, 0xABCD]) := by decide
theorem test_decode_set_diode : decodeFrame [0x03, 0x01, 0x00, 0x08] = some (.setDiode [0x0800]) := by decide
theorem test_decode_set_temp : decodeFrame [0x04, 0x01, 0x00, 0x00, 0xBC, 0x41] = some (.setTemp [0x41BC0000]) := by decide
theorem test_decode_set_imu : decodeFrame [0x05, 0x01, 0x00, 0x00, 0x16, 0x44] = some (.setImu [0x44160000]) := by decide
theorem test_decode_pack : decodeFrame [0x10] = some .pack := by decide
theorem test_decode_unpack : decodeFrame [0x11, 0x01, 0xC0] = some (.unpack [0xC0]) := by decide
theorem test_decode_append_byte : decodeFrame [0x12, 0x3F] = some (.appendByte 0x3F) := by decide
theorem test_decode_read_text : decodeFrame [0x13, 0x02, 0x02, 0x37, 0x32, 0x03, 0x30, 0x30, 0x37] =
    some (.readText [[0x37, 0x32], [0x30, 0x30, 0x37]]) := by decide
theorem test_decode_get_sensors : decodeFrame [0x20] = some .getSensors := by decide
theorem test_decode_get_payload : decodeFrame [0x21] = some .getPayload := by decide

/-- S4, U7, K4, A6, T19 and L2.7: requests that are not well-formed. -/
theorem test_decode_refuses : [[0x00, 0x04, 0x01, 0x00, 0x02, 0x00, 0x03, 0x00, 0xFF], [0x11, 0x03, 0x08, 0x34],
    [0x10, 0x00], [0x12], [0x13, 0x02, 0x02, 0x31, 0x36, 0x01], [], [0x06], [0x14], [0xFF], [0x20, 0x00]].all
    (fun f => (decodeFrame f).isNone) = true := by decide

/-- The host's words: one opcode byte, its operand bytes zero. -/
theorem test_table_words : decodeTableWord 8 0x13 = some (.readText []) ∧ decodeTableWord 8 0x12 = some (.appendByte 0) ∧
    decodeTableWord 16 0x0102 = some (.setPot [0]) ∧ decodeTableWord 8 0x30 = none := by decide

/-! ## One step -/

/-- Reset, with the sentinel of the vectors marked S=7E. -/
def start : State := { State.reset with params := { cap := 64, sentinel := 0x7E } }

/-- The state after one step; the state before where there is none. -/
def after (s : State) : State :=
  match step s with
  | .next t => t
  | _ => s

/-- The state after a request is served. -/
def served (s : State) (f : Frame) : State := after (s.withRequest f)

/-- S1. -/
theorem test_set_motor : served start [0x00, 0x04, 0x01, 0x00, 0x02, 0x00, 0x03, 0x00, 0xFF, 0xFF] =
    { start with regs := { start.regs with enc := #v[1, 2, 3, 0xFFFF] }, mask := 0x01, responses := [[0x00]] } := by decide

/-- S2. -/
theorem test_set_motor_of_three : served start [0x00, 0x03, 0x01, 0x00, 0x02, 0x00, 0x03, 0x00] =
    { start with responses := [[0x04, 0x04, 0x03]] } := by decide

/-- S6. -/
theorem test_set_switch_verbatim : served start [0x01, 0x04, 0x02, 0x00, 0xFF, 0x01] =
    { start with regs := { start.regs with sw := #v[2, 0, 0xFF, 1] }, mask := 0x02, responses := [[0x00]] } := by decide

/-- S7. -/
theorem test_set_pot : served start [0x02, 0x02, 0x34, 0x12, 0xCD, 0xAB] =
    { start with regs := { start.regs with pot := #v[0x1234, 0xABCD] }, mask := 0x04, responses := [[0x00]] } := by decide

/-- S16: mask bits add up. -/
theorem test_set_diode_adds_its_bit : (served { start with mask := 0x01 } [0x03, 0x01, 0x05, 0x00]).mask = 0x09 := by decide

/-- S12: a NaN pattern. -/
theorem test_set_temp_nan : (served start [0x04, 0x01, 0x01, 0x00, 0xC0, 0x7F]).regs.temp = 0x7FC00001 := by decide

/-- S13, the last element. -/
theorem test_set_imu : (served start [0x05, 0x06, 0x00, 0x00, 0xC8, 0x42, 0x00, 0x00, 0x48, 0x43, 0x00, 0x00, 0x96, 0x43,
    0x00, 0x00, 0xC8, 0x43, 0x00, 0x00, 0xFA, 0x43, 0x00, 0x00, 0x16, 0x44]).regs.imu =
    #v[0x42C80000, 0x43480000, 0x43960000, 0x43C80000, 0x43FA0000, 0x44160000] := by decide

/-- K6's start state. -/
def pending : State :=
  { start with regs := { start.regs with enc := #v[1, 2, 3, 0xFFFF], diode := 0x0800 }, mask := 0x09 }

/-- K6. -/
theorem test_pack : served pending [0x10] = { pending with
    pbuf := [(0, 0x09), (1, 1), (2, 0), (3, 2), (4, 0), (5, 3), (6, 0), (7, 0xFF), (8, 0xFF), (9, 0x00), (10, 0x08)],
    mask := 0x00, responses := [[0x00, 0x0B]] } := by decide

/-- K5: too small a buffer. -/
theorem test_pack_out_of_capacity : served { start with mask := 0x10, params := { cap := 4, sentinel := 0x7E } } [0x10] =
    { start with mask := 0x10, params := { cap := 4, sentinel := 0x7E }, responses := [[0x01, 0x05]] } := by decide

/-- P of L2.3. -/
def pots : State := { start with regs := { start.regs with pot := #v[7, 8] }, mask := 0x04 }

/-- U5: two trailing bytes. -/
theorem test_unpack : served pots [0x11, 0x05, 0x08, 0x34, 0x12, 0xAA, 0xBB] =
    { pots with regs := { pots.regs with diode := 0x1234 }, mask := 0x08, responses := [[0x00, 0x08]] } := by decide

/-- U3, L1.6. -/
theorem test_unpack_truncated : served pots [0x11, 0x0A, 0x20, 0, 0, 0, 0, 0, 0, 0, 0, 0] =
    { pots with responses := [[0x02, 0x19, 0x0A]] } := by decide

/-- A8, A4: the last byte of the buffer, and one more. -/
theorem test_append_byte_at_the_end : served { start with cursor := 63 } [0x12, 0x01] =
    { start with cursor := 64, pbuf := [(63, 0x01)], responses := [[0x00, 0x40]] } ∧
    served { start with cursor := 64 } [0x12, 0x01] = { start with cursor := 64, responses := [[0x01, 0x41]] } := by decide

/-- A2, A5: the sentinel. -/
theorem test_append_sentinel : served { start with cursor := 64, pbuf := [(0, 0x3F)] } [0x12, 0x7E] =
    { start with cursor := 0, pbuf := [(0, 0x3F)], responses := [[0x00, 0x00]] } := by decide

/-- T17: an integer, a float, an extra token. -/
theorem test_read_text : served start [0x13, 0x04, 0x02, 0x32, 0x34, 0x01, 0x35, 0x03, 0x31, 0x2E, 0x35, 0x01, 0x39] =
    { start with regs := { start.regs with diode := 5, temp := 0x3FC00000 }, mask := 0x18, responses := [[0x00, 0x18]] } := by
  decide

/-- T18: the fifth element token fails, the four before it are not kept. -/
theorem test_read_text_malformed : served start
    [0x13, 0x06, 0x02, 0x31, 0x37, 0x01, 0x31, 0x01, 0x32, 0x01, 0x33, 0x01, 0x34, 0x01, 0x78] =
    { start with responses := [[0x03, 0x05]] } := by decide

/-- G2: the response of GET_SENSORS. -/
theorem test_get_sensors : (served { start with regs := { start.regs with temp := 0x41BC0000 }, mask := 0x10 } [0x20]).responses =
    [0x00 :: 0x10 :: (List.replicate 18 0 ++ [0x00, 0x00, 0xBC, 0x41] ++ List.replicate 24 0)] := by decide

/-- For G3: a buffer of three bytes, all stored. -/
def written : State :=
  { start with pbuf := [(0, 0x08), (1, 0x34), (2, 0x12)], params := { cap := 3, sentinel := 0x7E } }

theorem test_get_payload : (served written [0x21]).responses = [[0x00, 0x08, 0x34, 0x12]] := by decide

/-- L2.7: the empty request. -/
theorem test_empty_request : (served start []).responses = [[0x05, 0xFF]] := by decide

/-- 95_test_vectors.md L2.5: the float corners. -/
theorem test_float_corners : parseFloat (ascii "3.4028235e38") = some 0x7F7FFFFF#32 ∧
    parseFloat (ascii "3.4028236e38") = some 0x7F800000#32 ∧ parseFloat (ascii "1e-45") = some 0x00000001#32 ∧
    parseFloat (ascii "7e-46") = some 0x00000000#32 ∧ parseFloat (ascii "1.17549435e-38") = some 0x00800000#32 ∧
    parseFloat (ascii ".5") = some 0x3F000000#32 ∧ parseFloat (ascii "5.") = some 0x40A00000#32 ∧
    parseFloat (ascii "+1") = some 0x3F800000#32 ∧ parseFloat (ascii "-0") = some 0x80000000#32 ∧
    parseFloat (ascii "0.1") = some 0x3DCCCCCD#32 ∧ parseFloat (ascii "1e39") = some 0x7F800000#32 := by decide +kernel

/-- 44_text_decode.md R142: strings outside the grammar. -/
theorem test_float_refuses : ["", ".", "-", "1e", "inf", "nan", " 1", "0x1", "1 ", "e1"].all
    (fun t => (parseFloat (ascii t)).isNone) = true := by decide

/-! ## Witnesses: states and operands that meet the hypotheses of each statement -/

theorem witness_EncodedCommandsDecodeBack : Instr.wf (.readText [[0x31], []]) = true := by decide

theorem witness_DecodedFramesEncodeBack : decodeFrame [0x02, 0x01, 0x01, 0x00] = some (.setPot [1]) := by decide

theorem witness_StreamFrameLengths : formatOf 0x30 = none ∧ ([[0x31], []] : List Token).length ≤ 255 ∧
    (∀ t ∈ ([[0x31], []] : List Token), t.length ≤ 255) ∧ Instr.wf (.unpack []) = true := by decide

theorem witness_UnassignedOpcodesAreIllegal : ((0x06 ≤ (0x0F#8).toNat ∧ (0x0F#8).toNat ≤ 0x0F) ∧
    (0x14 ≤ (0x14#8).toNat ∧ (0x14#8).toNat ≤ 0x1F) ∧ 0x22 ≤ (0x22#8).toNat) ∧
    (start.withRequest [0x0F]).port = .busy [0x0F] ∧ noReset (start.withRequest [0x0F]) := by
  exact ⟨by decide, rfl, nofun⟩

/-- Reset asserted with a command in progress. -/
def cutOff : State := { start with port := .busy [0x10], host := [.reset, .request [0x20]] }

theorem witness_ResetAtAnyTime : cutOff.host = .reset :: [.request [0x20]] := rfl

theorem witness_ResetDiscardsTheCommand : cutOff.host = .reset :: [.request [0x20]] := rfl

theorem witness_PortTakesOneRequestAtATime :
    (({ start with host := [.request [0x10]] } : State).port = .idle ∧
      ({ start with host := [.request [0x10]] } : State).host = .request [0x10] :: []) ∧
    (({ start with port := .busy [0x10], host := [.request [0x20]] } : State).port = .busy [0x10] ∧
      ({ start with port := .busy [0x10], host := [.request [0x20]] } : State).host = .request [0x20] :: []) ∧
    ((start.withRequest [0x10]).port = .busy [0x10] ∧ noReset (start.withRequest [0x10])) ∧
    (cutOff.port = .busy [0x10] ∧ cutOff.host = .reset :: [.request [0x20]]) :=
  ⟨⟨rfl, rfl⟩, ⟨rfl, rfl⟩, ⟨rfl, nofun⟩, rfl, rfl⟩

theorem witness_StepRunsTheDecodedCommand : ((start.withRequest [0x12, 0x01]).port = .busy [0x12, 0x01] ∧
    noReset (start.withRequest [0x12, 0x01]) ∧ decodeFrame [0x12, 0x01] = some (.appendByte 1)) ∧
    decodeTableWord 16 0x0112 = some (.appendByte 1) :=
  ⟨⟨rfl, nofun, by decide⟩, by decide⟩

theorem witness_RequestIsOneTransaction : ({ start with host := [.request [0x10], .reset] } : State).port = .idle ∧
    ({ start with host := [.request [0x10], .awaitResponse, .reset] } : State).host =
      .request [0x10] :: [.awaitResponse, .reset] ∧
    (∀ r, ([.awaitResponse, .reset] : List HostEvent) ≠ .reset :: r) ∧ decodeFrame [0x10] = some .pack :=
  ⟨rfl, rfl, nofun, by decide⟩

theorem witness_IllegalCommandChangesNothing : ((start.withRequest []).port = .busy [] ∧ noReset (start.withRequest [])) ∧
    (start.withRequest [0x10, 0x00]).port = .busy [0x10, 0x00] ∧ noReset (start.withRequest [0x10, 0x00]) ∧
    frameLength [0x10, 0x00] ≠ some (1 + 1) :=
  ⟨⟨rfl, nofun⟩, rfl, nofun, by decide⟩

theorem witness_IdlePortWaits : (start.port = .idle ∧ start.host = []) ∧
    ({ start with host := [.awaitResponse] } : State).port = .idle ∧
    ({ start with host := [.awaitResponse] } : State).host = .awaitResponse :: [] := ⟨⟨rfl, rfl⟩, rfl, rfl⟩

/-- A full buffer, a full mask: the ends of the invariant's ranges. -/
def full : State := { start with mask := 0x3F, cursor := 64, pbuf := [(0, 1), (63, 2)] }

theorem witness_StepKeepsInvariant : (full.withRequest [0x20]).Inv ∧ step (full.withRequest [0x20]) = .next (served full [0x20]) :=
  ⟨⟨by decide, by decide, by decide, by decide, by decide, by decide⟩, by rfl⟩

theorem witness_ReachableStatesAreGood : (1 ≤ 1 ∧ 1 ≤ 254) ∧ 1 ≤ 254 ∧ 254 ≤ 254 := by decide

theorem witness_ReservedMaskBitsStayZero : (full.withRequest [0x10]).mask &&& 0xC0 = 0x00 ∧
    step (full.withRequest [0x10]) = .next (served full [0x10]) := ⟨by decide, by rfl⟩

theorem witness_ErrorsChangeNothing : exec .pack { start with mask := 0x10, params := { cap := 4, sentinel := 0 } } =
    .next (answer { start with mask := 0x10, params := { cap := 4, sentinel := 0 } } [0x01, 5]) ∧
    (0x01 : Byte) ≠ 0x00 := ⟨by rfl, by decide⟩

theorem witness_ParametersNeverChange : step cutOff = .next (after cutOff) := by rfl

theorem witness_OnlyAppendWritesTheCursor : (∀ b, Instr.pack ≠ .appendByte b) ∧
    ∃ t, exec .pack full = .next t := ⟨nofun, _, rfl⟩

theorem witness_OnlyAppendReadsTheCursor : (∀ b, Instr.getSensors ≠ .appendByte b) ∧
    ∃ t, exec .getSensors full = .next t := ⟨nofun, _, rfl⟩

theorem witness_OnlyPackAndAppendWriteTheBuffer : Instr.unpack [0] ≠ .pack ∧ (∀ b, Instr.unpack [0] ≠ .appendByte b) ∧
    ∃ t, exec (.unpack [0]) full = .next t := ⟨by decide, nofun, _, rfl⟩

theorem witness_OnlyGetPayloadReadsTheBuffer : Instr.pack ≠ .getPayload ∧ ∃ t, exec .pack full = .next t :=
  ⟨by decide, _, rfl⟩

theorem witness_setter_counts : ([1, 2, 3] : List Half).length ≠ 4 ∧ ([] : List Byte).length ≠ 4 ∧
    ([1] : List Half).length ≠ 2 ∧ ([] : List Half).length ≠ 1 ∧ ([1, 2] : List Pattern).length ≠ 1 ∧
    ([1, 2, 3, 4, 5] : List Pattern).length ≠ 6 ∧ ([1] : List Half).length ≤ 255 ∧ ([1] : List Byte).length ≤ 255 ∧
    ([1] : List Pattern).length ≤ 255 ∧ ([0, 0, 0] : List Byte).length ≠ 2 * (1#8).toNat ∧
    ([0, 0] : List Byte).length ≠ (1#8).toNat ∧ ([0, 0, 0] : List Byte).length ≠ 4 * (1#8).toNat := by decide

theorem witness_SetterFrame : ∃ t, exec (setter .pot [7, 8]) start = .next t := ⟨_, rfl⟩

theorem witness_SettersOfDifferentFieldsCommute : Field.diode ≠ .temp ∧ [7].length = Field.count .diode ∧
    [0x41BC0000].length = Field.count .temp := by decide

theorem witness_LastSetterOfAFieldWins : [1, 2].length = Field.count .pot ∧ [3, 4].length = Field.count .pot := by decide

theorem witness_PackWritesThePayload : need (full.mask &&& 0x3F) ≤ full.params.cap ∧
    ({ full with params := { cap := 46, sentinel := 0 } } : State).params.cap < need (full.mask &&& 0x3F) ∧
    need ((0x3F : Byte) &&& 0x3F) ≤ 47 := by decide

theorem witness_FullPayloadOffsets : full.mask &&& 0x3F = 0x3F ∧ 47 ≤ full.params.cap := by decide

theorem witness_FieldsStandAtTheirOffsets : need (pending.mask &&& 0x3F) ≤ pending.params.cap ∧
    pending.mask.getLsbD (Field.index .diode) = true := by decide

theorem witness_SecondPackIsEmpty : pending.mask &&& 0xC0 = 0x00 ∧ need (pending.mask &&& 0x3F) ≤ pending.params.cap := by decide

theorem witness_PackAlwaysFitsThisHardware : start.params.cap = Config.cap := by decide

theorem witness_UnpackDecodesPresentFields : ([0, 0] : List Byte).length + 1 < need ((0x10 : Byte) &&& 0x3F) ∧
    need ((0x10 : Byte) &&& 0x3F) ≤ ([0, 0, 0xBC, 0x41] : List Byte).length + 1 ∧
    need ((0xC0 : Byte) &&& 0x3F) ≤ ([] : List Byte).length + 1 ∧ ([0xC0] : List Byte).length ≤ 255 ∧
    ([0xC0] : List Byte).length ≠ (0#8).toNat := by decide

theorem witness_UnpackIgnoresTrailingBytes : need ((0x08 : Byte) &&& 0x3F) ≤ ([0x34, 0x12] : List Byte).length + 1 := by decide

theorem witness_UnpackOfPackRestoresTheFields : need (pending.mask &&& 0x3F) ≤ pending.params.cap := by decide

theorem witness_PackOfUnpackReemitsThePayload : need ((0x08 : Byte) &&& 0x3F) ≤ ([0x34, 0x12] : List Byte).length + 1 ∧
    need ((0x08 : Byte) &&& 0x3F) ≤ start.params.cap := by decide

theorem witness_AppendByteStoresOrResets : ((1 : Byte) ≠ start.params.sentinel ∧
    ({ start with cursor := 63 } : State).cursor.toNat < start.params.cap) ∧
    start.params.cap ≤ ({ start with cursor := 64 } : State).cursor.toNat ∧ ([] : List Byte).length ≠ 1 := by decide

theorem witness_AppendedBytesAccumulate : (∀ b ∈ List.replicate 64 (1 : Byte), b ≠ start.params.sentinel) ∧
    start.cursor = 0 ∧ (List.replicate 64 (1 : Byte)).length ≤ start.params.cap ∧ start.params.cap ≤ 254 := by decide +kernel

theorem witness_PseudoInstructionsExpand : need (pending.mask &&& 0x3F) ≤ pending.params.cap := by decide

theorem witness_IntegerTokensAreDigits : ¬ (([] : Token) ≠ [] ∧ Digits [] ∧ placeValue [] ≤ 65535) ∧
    ¬ (ascii "65536" ≠ [] ∧ Digits (ascii "65536") ∧ placeValue (ascii "65536") ≤ 65535) :=
  ⟨fun h => h.1 rfl, fun h => absurd h.2.2 (by decide)⟩

/-- A space starts no token of the grammar. -/
theorem witness_FloatTokensAreTheGrammar : ¬ ∃ p : FloatParts, p.Legal ∧ p.text = [0x20] := by
  rintro ⟨⟨sg, w, pt, fr, ex⟩, ⟨hw, hf, hn, hp, -⟩, ht⟩
  have no : ¬ (0x30 ≤ (0x20#8).toNat ∧ (0x20#8).toNat ≤ 0x39) := by decide
  rcases sg with _ | _ | _ <;> rcases w with _ | ⟨b, w⟩ <;> cases pt <;> simp_all [FloatParts.text, signText, Digits]

theorem witness_FloatTokensRoundToNearest :
    FloatParts.Legal { sign := some true, whole := [0x31], point := true, frac := [0x35], expo := some (0x65, none, [0x30]) } := by
  refine ⟨by simp [Digits], by simp [Digits], by simp, by simp, ?_⟩
  rintro l sg ds ⟨⟩
  exact ⟨by decide, by simp [Digits], by simp⟩

theorem witness_ReadTextDecodesTokens : (parseUInt (ascii "24") 255 = some 24 ∧
    denoted (elementFields (BitVec.ofNat 8 24 &&& 0x3F)) [ascii "5", ascii "1.5"] = some [5, 0x3FC00000]) ∧
    parseUInt (ascii "x") 255 = none ∧
    ((elementFields (BitVec.ofNat 8 24 &&& 0x3F))[1]? = some .temp ∧
      (denoted ((elementFields (BitVec.ofNat 8 24 &&& 0x3F)).take 1) [ascii "5"]).isSome = true ∧
      badToken .temp ([ascii "5"] : List Token)[1]?) ∧ badToken .temp (some (ascii "inf")) :=
  ⟨by decide, by decide, ⟨by decide, by decide, .inl rfl⟩, .inr ⟨_, rfl, by decide⟩⟩

theorem witness_ReadTextDecodesTokens_walk : tokenWalk (2#8).toNat [0x01, 0x31, 0x01] ≠ some [0x01, 0x31, 0x01].length := by
  decide

theorem witness_ReadTextFrames : ([[0x31], []] : List Token).length ≤ 255 ∧
    ∀ t ∈ ([[0x31], []] : List Token), t.length ≤ 255 := by decide

theorem witness_ReadTextIgnoresExtraTokens : parseUInt (ascii "8") 255 = some 8 ∧
    (elementFields (BitVec.ofNat 8 8 &&& 0x3F)).length ≤ [ascii "7"].length := by decide

theorem witness_ReadTextEqualsUnpack : parseUInt (ascii "8") 255 = some 8 ∧
    denoted (elementFields (BitVec.ofNat 8 8 &&& 0x3F)) [ascii "007"] = some [7] := by decide

theorem witness_AccessorsRepeat : Instr.getPayload = .getSensors ∨ Instr.getPayload = .getPayload := .inr rfl

end Sys2Proof.Tests
end

/-! # The state family (10_state.md): what every step keeps, and who touches the cursor -/

section
namespace Sys2Proof.Machine

/-! ## How a command and a step end -/

/-- What a command that ends well has done, whichever it is: it has marked or set the mask beside the field registers (a
setter, UNPACK, READ_TEXT), made the payload (PACK), moved the cursor (APPEND_BYTE), or changed nothing (the accessors). -/
theorem bodyOf_ok_cases {i : Instr} {s u : State} {res : List Byte} (h : bodyOf i s = .ok (u, res)) :
    (∃ r f, u = (s.setRegs r).markPresent f) ∨
    (∃ r m, u = (s.setRegs r).setMask (fieldBits m)) ∨
    (req (fieldBits s.mask) ≤ s.params.cap ∧
      u = (s.setPbuf (Memory.writeBytes s.pbuf 0 (payload (fieldBits s.mask) s.regs))).clearPresent (fieldBits s.mask)) ∨
    (∃ b, i = .appendByte b ∧ (u = s.setCursor 0 ∨ s.cursor.toNat < s.params.cap ∧
      u = (s.setPbuf (Memory.writeBytes s.pbuf s.cursor.toNat [b])).setCursor (s.cursor + 1))) ∨
    u = s := by
  have setter : ∀ f vs, setField f vs s = .ok (u, res) → ∃ r f, u = (s.setRegs r).markPresent f := by
    intro f vs h
    rcases setField_cases f vs s with ⟨-, h2⟩ | ⟨-, h2⟩ <;> rw [h2] at h <;> cases h
    exact ⟨_, _, rfl⟩
  cases i with
  | setMotor vs => exact .inl (setter _ _ h)
  | setSwitch vs => exact .inl (setter _ _ h)
  | setPot vs => exact .inl (setter _ _ h)
  | setDiode vs => exact .inl (setter _ _ h)
  | setTemp vs => exact .inl (setter _ _ h)
  | setImu vs => exact .inl (setter _ _ h)
  | pack =>
    rcases packBody_cases s with ⟨hreq, h2⟩ | ⟨-, h2⟩ <;> rw [bodyOf, h2] at h <;> cases h
    exact .inr (.inr (.inl ⟨hreq, rfl⟩))
  | unpack d =>
    rcases unpackBody_cases d s with ⟨-, h2⟩ | ⟨_, _, -, -, h2⟩ | ⟨_, _, -, -, h2⟩ <;> rw [bodyOf, h2] at h <;> cases h
    exact .inr (.inl ⟨_, _, rfl⟩)
  | appendByte b =>
    rcases appendBody_cases b s with ⟨-, h2⟩ | ⟨-, hcur, h2⟩ | ⟨-, -, h2⟩ <;> rw [bodyOf, h2] at h <;> cases h
    · exact .inr (.inr (.inr (.inl ⟨b, rfl, .inl rfl⟩)))
    · exact .inr (.inr (.inr (.inl ⟨b, rfl, .inr ⟨hcur, rfl⟩⟩)))
  | readText ts =>
    rcases readTextBody_cases ts s with ⟨_, h2⟩ | ⟨_, _, _, _, -, -, -, h2⟩ <;> rw [bodyOf, h2] at h <;> cases h
    exact .inr (.inl ⟨_, _, rfl⟩)
  | getSensors => cases h; exact .inr (.inr (.inr (.inr rfl)))
  | getPayload => cases h; exact .inr (.inr (.inr (.inr rfl)))

/-- A command's next state is the working copy of its body or the state before, with the response delivered. -/
theorem exec_next_cases {i : Instr} {s t : State} (h : exec i s = .next t) :
    (∃ u res, bodyOf i s = .ok (u, res) ∧ t = u.respond (okFrame res)) ∨ (∃ e : CmdError, t = s.respond e.frame) := by
  rw [exec_eq_runCommand] at h
  rcases runCommand_cases (bodyOf i) s with ⟨u, res, hb, h2⟩ | ⟨e, -, h2⟩ <;> rw [h2] at h <;> cases h
  · exact .inl ⟨u, res, hb, rfl⟩
  · exact .inr ⟨e, rfl⟩

theorem exec_total (i : Instr) (s : State) : ∃ t, exec i s = .next t := ⟨_, exec_eq_runCommand i s⟩

theorem runRequest_total (f : Frame) (s : State) : ∃ t, runRequest f s = .next t := by
  unfold runRequest
  split
  · exact exec_total _ s
  · exact ⟨_, rfl⟩

/-- No step stops (60_exceptions.md R209). -/
theorem step_total (s : State) : ∃ t, step s = .next t := by
  rcases step_cases s with ⟨_, -, h⟩ | ⟨f, -, -, h⟩ | ⟨_, _, -, -, h⟩ | ⟨_, -, -, h⟩ | ⟨-, -, h⟩
  · exact ⟨_, h⟩
  · rw [h]; exact runRequest_total f _
  · exact ⟨_, h⟩
  · exact ⟨_, h⟩
  · exact ⟨_, h⟩

/-! ## A property of the block that every step keeps -/

/-- What is to be shown of a property so that every step keeps it: it does not look at the port and the host's side of
it, reset keeps it, and every command that ends well keeps it. -/
structure KeptByParts (P : State → Prop) : Prop where
  port_side : ∀ s port host responses, P s → P { s with port := port, host := host, responses := responses }
  reset : ∀ s, P s → P s.resetBlock
  body : ∀ i s u res, P s → bodyOf i s = .ok (u, res) → P u

namespace KeptByParts

variable {P : State → Prop} {s t : State}

theorem setHost (hP : KeptByParts P) (hs : P s) (events : List HostEvent) : P (s.setHost events) :=
  hP.port_side s s.port events s.responses hs

theorem respond (hP : KeptByParts P) (hs : P s) (f : Frame) : P (s.respond f) :=
  hP.port_side s .idle s.host (s.responses ++ [f]) hs

theorem exec (hP : KeptByParts P) {i : Instr} (hs : P s) (h : exec i s = .next t) : P t := by
  rcases exec_next_cases h with ⟨u, res, hb, rfl⟩ | ⟨e, rfl⟩
  · exact hP.respond (hP.body i s u res hs hb) _
  · exact hP.respond hs _

theorem runRequest (hP : KeptByParts P) {f : Frame} (hs : P s) (h : runRequest f s = .next t) : P t := by
  unfold Machine.runRequest at h
  split at h
  · exact hP.exec hs h
  · cases h; exact hP.respond hs _

theorem step (hP : KeptByParts P) (hs : P s) (h : step s = .next t) : P t := by
  rcases step_cases s with ⟨_, -, h2⟩ | ⟨f, -, -, h2⟩ | ⟨f, rest, -, -, h2⟩ | ⟨_, -, -, h2⟩ | ⟨-, -, h2⟩ <;> rw [h2] at h
  · cases h; exact hP.reset _ (hP.setHost hs _)
  · exact hP.runRequest (hP.setHost hs _) h
  · cases h; exact hP.port_side s (.busy f) rest s.responses hs
  · cases h; exact hP.setHost hs _
  · cases h; exact hs

end KeptByParts

/-! ## The reserved mask bits (R28) -/

@[simp] theorem fieldBits_reserved (m : Byte) : fieldBits m &&& 0xC0#8 = 0#8 := by
  rw [fieldBits, BitVec.and_assoc]; exact BitVec.and_zero

@[simp] theorem fieldBit_reserved (f : Field) : fieldBit f &&& 0xC0#8 = 0#8 := by cases f <;> decide

theorem or_fieldBit_reserved {m : Byte} (h : m &&& 0xC0#8 = 0#8) (f : Field) : (m ||| fieldBit f) &&& 0xC0#8 = 0#8 := by
  rw [BitVec.and_comm, BitVec.and_or_distrib_left, BitVec.and_comm, h, BitVec.and_comm, fieldBit_reserved]; rfl

theorem and_reserved {m : Byte} (h : m &&& 0xC0#8 = 0#8) (k : Byte) : (m &&& k) &&& 0xC0#8 = 0#8 := by
  rw [BitVec.and_assoc, BitVec.and_comm k, ← BitVec.and_assoc, h, BitVec.zero_and]

theorem bodyOf_ok_mask_reserved {i : Instr} {s u : State} {res : List Byte} (hs : s.mask &&& 0xC0#8 = 0#8)
    (h : bodyOf i s = .ok (u, res)) : u.mask &&& 0xC0#8 = 0#8 := by
  rcases bodyOf_ok_cases h with ⟨r, f, rfl⟩ | ⟨r, m, rfl⟩ | ⟨-, rfl⟩ | ⟨b, -, rfl | ⟨-, rfl⟩⟩ | rfl
  · exact or_fieldBit_reserved hs f
  · exact fieldBits_reserved m
  · exact and_reserved hs _
  · exact hs
  · exact hs
  · exact hs

theorem mask_reserved_keptByParts : KeptByParts fun s => s.mask &&& 0xC0#8 = 0#8 where
  port_side _ _ _ _ hs := hs
  reset _ _ := BitVec.zero_and
  body _ _ _ _ := bodyOf_ok_mask_reserved

/-- Settles O18: every command leaves bits 7:6 clear or sets the mask to field bits, and reset clears it. -/
theorem reservedMaskBitsStayZero : Obligations.ReservedMaskBitsStayZero :=
  fun _ _ hs h => mask_reserved_keptByParts.step hs h

/-! ## The parameters (R33) -/

theorem params_keptByParts (p : Params) : KeptByParts fun s => s.params = p where
  port_side _ _ _ _ hs := hs
  reset _ hs := hs
  body _ _ _ _ hs h := by
    obtain ⟨-, hparams, -⟩ := bodyOf_ok_keeps h
    exact hparams.trans hs

/-- Settles O22: to have the parameters of `s` is a property that every step keeps. -/
theorem parametersNeverChange : Obligations.ParametersNeverChange :=
  fun s _ h => (params_keptByParts s.params).step rfl h

/-! ## The invariant -/

namespace State.Inv

variable {s : State}

/-- A block with nothing in its mask, cursor and buffer is good, whatever its other fields hold. -/
theorem of_blank (hpos : 1 ≤ s.params.cap) (hle : s.params.cap ≤ 254) (hm : s.mask = 0) (hc : s.cursor = 0)
    (hb : s.pbuf = []) : s.Inv where
  cap_pos := hpos
  cap_le := hle
  cursor_le := by simp [hc]
  mask_reserved := by simp [hm]
  pbuf_wf := by simp [hb]
  pbuf_in_range := by simp [hb]

theorem resetBlock (hs : s.Inv) : s.resetBlock.Inv := of_blank hs.cap_pos hs.cap_le rfl rfl rfl

theorem setCursor (hs : s.Inv) {c : Byte} (hc : c.toNat ≤ s.params.cap) : (s.setCursor c).Inv :=
  { hs with cursor_le := hc }

/-- Bytes stored inside the buffer leave it canonical and inside its range (20_memory.md R42). -/
theorem setPbuf_writeBytes (hs : s.Inv) {off : Nat} {bs : List Byte} (hfit : off + bs.length ≤ s.params.cap) :
    (s.setPbuf (Memory.writeBytes s.pbuf off bs)).Inv :=
  { hs with
    pbuf_wf := Memory.writeBytes_wf hs.pbuf_wf off bs
    pbuf_in_range := by
      intro c hc
      rcases Memory.mem_writeBytes hc with hlt | hmem
      · exact Nat.lt_of_lt_of_le hlt hfit
      · exact hs.pbuf_in_range c hmem }

/-- The invariant looks at the parameters, the cursor, the mask's reserved bits and the buffer alone. -/
theorem of_same {u : State} (hs : s.Inv) (hparams : u.params = s.params) (hcursor : u.cursor = s.cursor)
    (hpbuf : u.pbuf = s.pbuf) (hmask : u.mask &&& 0xC0#8 = 0#8) : u.Inv where
  cap_pos := hparams ▸ hs.cap_pos
  cap_le := hparams ▸ hs.cap_le
  cursor_le := by rw [hparams, hcursor]; exact hs.cursor_le
  mask_reserved := hmask
  pbuf_wf := hpbuf ▸ hs.pbuf_wf
  pbuf_in_range := by rw [hparams, hpbuf]; exact hs.pbuf_in_range

end State.Inv

/-- A command that ends well keeps the invariant. PACK's payload and APPEND_BYTE's byte fit the capacity, and the cursor
steps past a byte only below a capacity of at most 254, so that it does not wrap. -/
theorem bodyOf_ok_inv {i : Instr} {s u : State} {res : List Byte} (hs : s.Inv) (h : bodyOf i s = .ok (u, res)) : u.Inv := by
  have hmask := bodyOf_ok_mask_reserved hs.mask_reserved h
  rcases bodyOf_ok_cases h with ⟨r, f, rfl⟩ | ⟨r, m, rfl⟩ | ⟨hreq, rfl⟩ | ⟨b, -, rfl | ⟨hcur, rfl⟩⟩ | rfl
  · exact hs.of_same rfl rfl rfl hmask
  · exact hs.of_same rfl rfl rfl hmask
  · have hstored := hs.setPbuf_writeBytes (off := 0) (bs := payload (fieldBits s.mask) s.regs) (by simpa using hreq)
    exact hstored.of_same rfl rfl rfl hmask
  · exact hs.setCursor (Nat.zero_le _)
  · have hstored := hs.setPbuf_writeBytes (off := s.cursor.toNat) (bs := [b]) hcur
    have hcap := hs.cap_le
    have hstep : (s.cursor + 1#8).toNat ≤ s.params.cap := by bv_omega
    exact hstored.setCursor hstep
  · exact hs

theorem inv_keptByParts : KeptByParts State.Inv where
  port_side _ _ _ _ hs := hs.of_same rfl rfl rfl hs.mask_reserved
  reset _ hs := hs.resetBlock
  body _ _ _ _ := bodyOf_ok_inv

/-- Settles O16: reset blanks the block, the port's side does not matter, and every command keeps the invariant. -/
theorem stepKeepsInvariant : Obligations.StepKeepsInvariant :=
  fun _ _ hs h => inv_keptByParts.step hs h

/-- Settles O15: this hardware's capacity is in range, and a reset block is blank. -/
theorem invariantHoldsAtReset : Obligations.InvariantHoldsAtReset :=
  State.Inv.of_blank (by decide) (by decide) rfl rfl rfl

/-! ## Runs -/

theorem run_succ_of_step {s t : State} (h : step s = .next t) (k : Nat) :
    Host.Core.run Sys2Proof.core (k + 1) s = Host.Core.run Sys2Proof.core k t := by
  have hcore : Sys2Proof.core.step s = .next t := h
  simp only [Host.Core.run, hcore]

/-- A property that every step keeps holds at the end of every run, and no run stops. -/
theorem run_keeps {P : State → Prop} (hP : ∀ s t, P s → step s = .next t → P t) (k : Nat) {s : State} (hs : P s) :
    ∃ t, Host.Core.run Sys2Proof.core k s = .next t ∧ P t := by
  induction k generalizing s with
  | zero => exact ⟨s, rfl, hs⟩
  | succ k ih =>
    obtain ⟨u, hu⟩ := step_total s
    rw [run_succ_of_step hu]
    exact ih (hP s u hs hu)

/-- Settles O17: by induction on the steps, from a reset state whose mask, cursor and buffer are blank. -/
theorem reachableStatesAreGood : Obligations.ReachableStatesAreGood :=
  fun _ _ k hpos hle => run_keeps stepKeepsInvariant k (.of_blank hpos hle rfl rfl rfl)

/-! ## The cursor (R29) -/

theorem bodyOf_ok_cursor {i : Instr} {s u : State} {res : List Byte} (hi : ∀ b, i ≠ .appendByte b)
    (h : bodyOf i s = .ok (u, res)) : u.cursor = s.cursor := by
  rcases bodyOf_ok_cases h with ⟨r, f, rfl⟩ | ⟨r, m, rfl⟩ | ⟨-, rfl⟩ | ⟨b, hb, -⟩ | rfl
  · rfl
  · rfl
  · rfl
  · exact absurd hb (hi b)
  · rfl

/-- Settles O23: the working copy keeps the cursor, and a response does not touch it. -/
theorem onlyAppendWritesTheCursor : Obligations.OnlyAppendWritesTheCursor := by
  intro i s t hi h
  rcases exec_next_cases h with ⟨u, res, hb, rfl⟩ | ⟨e, rfl⟩
  · exact (u.respond_cursor _).trans (bodyOf_ok_cursor hi hb)
  · rfl

/-- A body's end with another cursor in the working copy. -/
def withCursor (c : Byte) (o : Except CmdError (State × List Byte)) : Except CmdError (State × List Byte) :=
  o.map fun p => (p.1.setCursor c, p.2)

theorem State.storePbuf_setCursor (s : State) (c : Byte) (off : Nat) (bs : List Byte) :
    (s.setCursor c).storePbuf off bs = (s.storePbuf off bs).map fun t => t.setCursor c := by
  rcases s.storePbuf_cases off bs with ⟨hfit, h⟩ | ⟨hover, h⟩ <;> rw [h]
  · exact State.storePbuf_of_le hfit
  · exact State.storePbuf_of_lt hover

/-- Another cursor passes through a body that does not use it. -/
theorem bodyOf_setCursor {i : Instr} (hi : ∀ b, i ≠ .appendByte b) (s : State) (c : Byte) :
    bodyOf i (s.setCursor c) = withCursor c (bodyOf i s) := by
  have setter : ∀ f vs, setField f vs (s.setCursor c) = withCursor c (setField f vs s) := by
    intro f vs
    unfold setField
    split <;> rfl
  cases i with
  | setMotor vs => exact setter _ _
  | setSwitch vs => exact setter _ _
  | setPot vs => exact setter _ _
  | setDiode vs => exact setter _ _
  | setTemp vs => exact setter _ _
  | setImu vs => exact setter _ _
  | pack =>
    simp only [bodyOf, packBody, State.setCursor_mask, State.setCursor_regs, State.storePbuf_setCursor]
    cases s.storePbuf 0 (payload (fieldBits s.mask) s.regs) <;> rfl
  | unpack d =>
    simp only [bodyOf, unpackBody]
    split
    · rfl
    · split <;> rfl
  | appendByte b => exact absurd rfl (hi b)
  | readText ts =>
    simp only [bodyOf, readTextBody, State.setCursor_regs]
    split
    · rfl
    · split
      · rfl
      · split <;> rfl
  | getSensors => rfl
  | getPayload => rfl

theorem runCommand_setCursor {body : Body} {s : State} {c : Byte} (hbody : body (s.setCursor c) = withCursor c (body s))
    {t : State} (h : runCommand body s = .next t) : runCommand body (s.setCursor c) = .next (t.setCursor c) := by
  rcases runCommand_cases body s with ⟨u, res, hb, h2⟩ | ⟨e, hb, h2⟩ <;> rw [h2] at h <;> cases h <;> rw [hb] at hbody
  · exact runCommand_of_ok hbody
  · exact runCommand_of_error hbody

/-- Settles O24: another cursor passes through the body and the delivery of its response. -/
theorem onlyAppendReadsTheCursor : Obligations.OnlyAppendReadsTheCursor := by
  intro i s t c hi h
  rw [exec_eq_runCommand] at h ⊢
  exact runCommand_setCursor (bodyOf_setCursor hi s c) h

/-! ## The reset state (R35) -/

/-- Settles O7: each register's reset value is written out in the model. -/
theorem resetState : Obligations.ResetState :=
  ⟨rfl, rfl, rfl, rfl, rfl, rfl, rfl, rfl, rfl, rfl, fun _ => rfl⟩

end Sys2Proof.Machine
end

/-! # The memory family (20_memory.md): who writes and who reads the buffer -/

section
namespace Sys2Proof.Machine

/-! ## Another buffer -/

/-- The same state with other stored bytes and another draw of the bytes not stored. -/
def State.withBuffer (s : State) (m : Memory) (draw : Nat) : State := { s with pbuf := m, epoch := draw }

@[simp] theorem State.withBuffer_self (s : State) : s.withBuffer s.pbuf s.epoch = s := rfl
@[simp] theorem State.withBuffer_regs (s : State) (m : Memory) (k : Nat) : (s.withBuffer m k).regs = s.regs := rfl
@[simp] theorem State.withBuffer_mask (s : State) (m : Memory) (k : Nat) : (s.withBuffer m k).mask = s.mask := rfl
@[simp] theorem State.withBuffer_cursor (s : State) (m : Memory) (k : Nat) : (s.withBuffer m k).cursor = s.cursor := rfl
@[simp] theorem State.withBuffer_params (s : State) (m : Memory) (k : Nat) : (s.withBuffer m k).params = s.params := rfl

/-- A byte read after a store into any buffer: one of the bytes stored, or the byte before. -/
theorem State.withBuffer_writeBytes_pbufByte (s t : State) (m : Memory) (k off : Nat) (bs : List Byte) (a : Nat) :
    (t.withBuffer (Memory.writeBytes m off bs) k).pbufByte a =
      if off ≤ a ∧ a < off + bs.length then bs[a - off]?.getD 0 else (s.withBuffer m k).pbufByte a :=
  State.setPbuf_writeBytes_pbufByte (s.withBuffer m k) off bs a

/-- Whether a store is made does not depend on the buffer, and it is made into the buffer given. -/
theorem State.storePbuf_withBuffer (s : State) (m : Memory) (k off : Nat) (bs : List Byte) :
    (s.withBuffer m k).storePbuf off bs =
      (s.storePbuf off bs).map fun t => t.withBuffer (Memory.writeBytes m off bs) k := by
  rcases s.storePbuf_cases off bs with ⟨hfit, h⟩ | ⟨hover, h⟩ <;> rw [h]
  · exact State.storePbuf_of_le hfit
  · exact State.storePbuf_of_lt hover

/-! ## What a command stores -/

/-- The bytes that a command stores into the buffer when it ends well, and the offset it stores them from. -/
def storedBytes (i : Instr) (s : State) : Nat × List Byte :=
  match i with
  | .pack => (0, payload (fieldBits s.mask) s.regs)
  | .appendByte b => (s.cursor.toNat, if b = s.params.sentinel then [] else [b])
  | _ => (0, [])

/-- Only PACK and APPEND_BYTE store bytes (20_memory.md R41). -/
theorem storedBytes_of_ne {i : Instr} (hpack : i ≠ .pack) (happend : ∀ b, i ≠ .appendByte b) (s : State) :
    storedBytes i s = (0, []) := by
  cases i with
  | pack => exact absurd rfl hpack
  | appendByte b => exact absurd rfl (happend b)
  | _ => rfl

/-- The buffer `m` after the store of a command. -/
def bufferAfter (i : Instr) (s : State) (m : Memory) : Memory :=
  Memory.writeBytes m (storedBytes i s).1 (storedBytes i s).2

/-- A body's end with another buffer in the working copy. -/
def endWithBuffer (m : Memory) (k : Nat) (o : Except CmdError (State × List Byte)) : Except CmdError (State × List Byte) :=
  o.map fun p => (p.1.withBuffer m k, p.2)

/-- A body that does not read the buffer ends the same on every buffer, but for the buffer itself: that is the one given,
with the bytes of the command stored. -/
theorem bodyOf_withBuffer {i : Instr} (hi : i ≠ .getPayload) (s : State) (m : Memory) (k : Nat) :
    bodyOf i (s.withBuffer m k) = endWithBuffer (bufferAfter i s m) k (bodyOf i s) := by
  have setter : ∀ f vs, setField f vs (s.withBuffer m k) = endWithBuffer m k (setField f vs s) := by
    intro f vs
    unfold setField
    split <;> rfl
  cases i with
  | setMotor vs => exact setter _ _
  | setSwitch vs => exact setter _ _
  | setPot vs => exact setter _ _
  | setDiode vs => exact setter _ _
  | setTemp vs => exact setter _ _
  | setImu vs => exact setter _ _
  | pack =>
    simp only [bodyOf, packBody, State.withBuffer_mask, State.withBuffer_regs, State.storePbuf_withBuffer]
    cases s.storePbuf 0 (payload (fieldBits s.mask) s.regs) <;> rfl
  | unpack d =>
    simp only [bodyOf, unpackBody]
    split
    · rfl
    · split <;> rfl
  | appendByte b =>
    by_cases hb : b = s.params.sentinel
    · simp only [bodyOf, appendBody, State.withBuffer_params, bufferAfter, storedBytes, hb, ↓reduceIte]
      rfl
    · simp only [bodyOf, appendBody, State.withBuffer_params, State.withBuffer_cursor, State.storePbuf_withBuffer,
        bufferAfter, storedBytes, hb, ↓reduceIte]
      cases s.storePbuf s.cursor.toNat [b] <;> rfl
  | readText ts =>
    simp only [bodyOf, readTextBody, State.withBuffer_regs]
    split
    · rfl
    · split
      · rfl
      · split <;> rfl
  | getSensors => rfl
  | getPayload => exact absurd rfl hi

/-- The buffer after a command that ends well: the buffer before, with the bytes of the command stored. -/
theorem bodyOf_ok_pbuf {i : Instr} {s u : State} {res : List Byte} (h : bodyOf i s = .ok (u, res)) :
    u.pbuf = bufferAfter i s s.pbuf := by
  by_cases hi : i = .getPayload
  · subst hi; cases h; rfl
  · have hself := bodyOf_withBuffer hi s s.pbuf s.epoch
    rw [State.withBuffer_self, h] at hself
    obtain ⟨hu, -⟩ := Prod.mk.inj (Except.ok.inj hself)
    exact congrArg State.pbuf hu

/-! ## Who writes the buffer -/

/-- Settles O25: these commands store no byte, and a response does not touch the buffer or its draw. -/
theorem onlyPackAndAppendWriteTheBuffer : Obligations.OnlyPackAndAppendWriteTheBuffer := by
  intro i s t hpack happend h
  obtain ⟨hpbuf, hepoch⟩ : t.pbuf = s.pbuf ∧ t.epoch = s.epoch := by
    rcases exec_next_cases h with ⟨u, res, hb, rfl⟩ | ⟨e, rfl⟩
    · obtain ⟨-, -, hepoch, -⟩ := bodyOf_ok_keeps hb
      have hpbuf := bodyOf_ok_pbuf hb
      rw [bufferAfter, storedBytes_of_ne hpack happend] at hpbuf
      exact ⟨hpbuf, hepoch⟩
    · exact ⟨rfl, rfl⟩
  exact ⟨hpbuf, State.pbufByte_congr hpbuf hepoch⟩

/-! ## Who reads the buffer -/

/-- A command that does not read the buffer runs alike on every buffer: it stores the same bytes at the same offset, and
all else, the response included, is the same. -/
theorem exec_withBuffer {i : Instr} {s t : State} (hi : i ≠ .getPayload) (h : exec i s = .next t) :
    ∃ off bs, ∀ m k, exec i (s.withBuffer m k) = .next (t.withBuffer (Memory.writeBytes m off bs) k) := by
  simp only [exec_eq_runCommand] at h ⊢
  have hbody := bodyOf_withBuffer hi s
  rcases runCommand_cases (bodyOf i) s with ⟨u, res, hb, h2⟩ | ⟨e, hb, h2⟩ <;> rw [h2] at h <;> cases h <;> rw [hb] at hbody
  · exact ⟨_, _, fun m k => runCommand_of_ok (hbody m k)⟩
  · exact ⟨0, [], fun m k => runCommand_of_error (hbody m k)⟩

/-- Settles O26: both runs store the same bytes at the same offset, so that a byte is one of them in both or is left alone
in both. -/
theorem onlyGetPayloadReadsTheBuffer : Obligations.OnlyGetPayloadReadsTheBuffer := by
  intro i s t m k hi h
  obtain ⟨off, bs, hexec⟩ := exec_withBuffer hi h
  have ht : t = t.withBuffer (Memory.writeBytes s.pbuf off bs) s.epoch := by
    have hself := hexec s.pbuf s.epoch
    rw [State.withBuffer_self, h] at hself
    exact Host.Outcome.next.inj hself
  refine ⟨Memory.writeBytes m off bs, hexec m k, fun a => ?_⟩
  have hfirst := State.withBuffer_writeBytes_pbufByte s t s.pbuf s.epoch off bs a
  have hsecond := State.withBuffer_writeBytes_pbufByte s t m k off bs a
  rw [← ht] at hfirst
  by_cases ha : off ≤ a ∧ a < off + bs.length
  · rw [if_pos ha] at hfirst hsecond
    exact .inr (hsecond.trans hfirst.symm)
  · rw [if_neg ha] at hfirst hsecond
    exact .inl ⟨hfirst, hsecond⟩

/-! ## The accessors -/

theorem exec_getSensors (s : State) :
    exec .getSensors s = .next (s.respond (okFrame (s.mask :: Field.inOrder.flatMap s.regs.fieldBytes))) := rfl

theorem exec_getPayload (s : State) : exec .getPayload s = .next (s.respond (okFrame s.pbufBytes)) := rfl

@[simp] theorem State.respond_pbufBytes (s : State) (f : Frame) : (s.respond f).pbufBytes = s.pbufBytes := rfl

/-- Settles O59: the delivery of the first response changes nothing that the second accessor reads. -/
theorem accessorsRepeat : Obligations.AccessorsRepeat := by
  rintro i s (rfl | rfl)
  · refine ⟨okFrame (s.mask :: Field.inOrder.flatMap s.regs.fieldBytes), ?_⟩
    simp only [Claims.execAll, exec_getSensors, State.respond_mask, State.respond_regs]
    rfl
  · refine ⟨okFrame s.pbufBytes, ?_⟩
    simp only [Claims.execAll, exec_getPayload, State.respond_pbufBytes]
    rfl

end Sys2Proof.Machine
end

/-! # The encoding family (30_encoding.md): frames, payload offsets, the port -/

/-! ## Frames: what the decoder reads is what the encoder writes -/

section
namespace Sys2Proof

open Sys2Proof.Claims

/-! ### Operand bytes -/

theorem leElems_lt (ew n : Nat) (bs : List Byte) : ∀ v ∈ leElems ew n bs, v < 256 ^ ew := by
  induction n generalizing bs with
  | zero => intro v hv; cases hv
  | succ n ih =>
    intro v hv
    rcases List.mem_cons.mp hv with rfl | hv
    · exact Nat.lt_of_lt_of_le (leValue_lt _) (Nat.pow_le_pow_right (by decide) (by simp))
    · exact ih _ v hv

/-- A count byte holds every count that a frame can carry. -/
theorem toNat_ofNat_of_le_maxCount {n : Nat} (h : n ≤ maxCount) : (BitVec.ofNat 8 n).toNat = n := by
  rw [BitVec.toNat_ofNat]
  exact Nat.mod_eq_of_lt (Nat.lt_succ_of_le h)

theorem toNat_le_maxCount (b : Byte) : b.toNat ≤ maxCount := Nat.le_of_lt_succ b.isLt

theorem decodeElems_eq_some_iff {ew : Nat} {bs : List Byte} {vs : List Nat} :
    decodeElems ew bs = some vs ↔ vs.length ≤ maxCount ∧ (∀ v ∈ vs, v < 256 ^ ew) ∧
      BitVec.ofNat 8 vs.length :: (vs.flatMap fun v => leBytes v ew) = bs := by
  constructor
  · intro h
    rcases bs with _ | ⟨n, bs⟩
    · cases h
    · rw [decodeElems, Option.ite_none_right_eq_some] at h
      obtain ⟨hlen, hvs⟩ := h
      cases hvs
      refine ⟨by simpa using toNat_le_maxCount n, leElems_lt ew _ bs, ?_⟩
      rw [leElems_length, flatMap_leBytes_leElems ew _ bs hlen, BitVec.ofNat_toNat, BitVec.setWidth_eq]
  · rintro ⟨hcount, hbound, rfl⟩
    have hcut : leElems ew vs.length (vs.flatMap fun v => leBytes v ew) = vs := by
      have h := leElems_flatMap_leBytes ew vs []
      rw [List.append_nil] at h
      rw [h]
      exact (List.map_congr_left fun v hv => Nat.mod_eq_of_lt (hbound v hv)).trans (List.map_id vs)
    rw [decodeElems, toNat_ofNat_of_le_maxCount hcount, if_pos (flatMap_leBytes_length ew vs), hcut]

theorem decodeBuffer_eq_some_iff {bs d : List Byte} :
    decodeBuffer bs = some d ↔ d.length ≤ maxCount ∧ BitVec.ofNat 8 d.length :: d = bs := by
  constructor
  · intro h
    rcases bs with _ | ⟨l, bs⟩
    · cases h
    · rw [decodeBuffer, Option.ite_none_right_eq_some] at h
      obtain ⟨hlen, hd⟩ := h
      cases hd
      refine ⟨hlen ▸ toNat_le_maxCount l, ?_⟩
      rw [hlen, BitVec.ofNat_toNat, BitVec.setWidth_eq]
  · rintro ⟨hcount, rfl⟩
    rw [decodeBuffer, if_pos (toNat_ofNat_of_le_maxCount hcount).symm]

theorem decodeByte_eq_some_iff {bs : List Byte} {b : Byte} : decodeByte bs = some b ↔ [b] = bs := by
  rcases bs with _ | ⟨c, _ | ⟨_, _⟩⟩ <;> simp [decodeByte, eq_comm]

theorem decodeNone_eq_some_iff {i j : Instr} {bs : List Byte} : decodeNone i bs = some j ↔ i = j ∧ [] = bs := by
  cases bs <;> simp [decodeNone]

/-- The tokens read are those whose frames stand side by side. -/
theorem decodeTokens_eq_some_iff {n : Nat} {bs : List Byte} {ts : List Token} :
    decodeTokens n bs = some ts ↔ ts.length = n ∧ (∀ t ∈ ts, t.length ≤ maxCount) ∧ ts.flatMap encodeToken = bs := by
  induction n generalizing bs ts with
  | zero => cases bs <;> cases ts <;> simp [decodeTokens, encodeToken]
  | succ n ih =>
    rcases bs with _ | ⟨len, bs⟩
    · cases ts <;> simp [decodeTokens, encodeToken]
    · constructor
      · intro h
        rw [decodeTokens, Option.ite_none_right_eq_some, Option.map_eq_some_iff] at h
        obtain ⟨hlen, us, hus, rfl⟩ := h
        obtain ⟨hcount, hbound, hbytes⟩ := ih.mp hus
        have htake : (bs.take len.toNat).length = len.toNat := List.length_take_of_le hlen
        refine ⟨by simp [hcount], List.forall_mem_cons.mpr ⟨htake.le.trans (toNat_le_maxCount len), hbound⟩, ?_⟩
        rw [List.flatMap_cons, hbytes, encodeToken, htake, BitVec.ofNat_toNat, BitVec.setWidth_eq, List.cons_append,
          List.take_append_drop]
      · rintro ⟨hcount, hbound, hbytes⟩
        rcases ts with _ | ⟨t, ts⟩
        · cases hbytes
        · obtain ⟨ht, hts⟩ := List.forall_mem_cons.mp hbound
          rw [List.flatMap_cons, encodeToken, List.cons_append] at hbytes
          cases hbytes
          have hrest : decodeTokens n (ts.flatMap encodeToken) = some ts := ih.mpr ⟨Nat.succ.inj hcount, hts, rfl⟩
          rw [decodeTokens, toNat_ofNat_of_le_maxCount ht, if_pos (by simp), List.drop_left, List.take_left, hrest]
          rfl

theorem decodeText_eq_some_iff {bs : List Byte} {ts : List Token} :
    decodeText bs = some ts ↔ Instr.wf (.readText ts) = true ∧ BitVec.ofNat 8 ts.length :: ts.flatMap encodeToken = bs := by
  have hwf : Instr.wf (.readText ts) = true ↔ ts.length ≤ maxCount ∧ ∀ t ∈ ts, t.length ≤ maxCount := by simp [Instr.wf]
  rw [hwf]
  constructor
  · intro h
    rcases bs with _ | ⟨n, bs⟩
    · cases h
    · obtain ⟨hcount, hbound, rfl⟩ := decodeTokens_eq_some_iff.mp h
      refine ⟨⟨hcount ▸ toNat_le_maxCount n, hbound⟩, ?_⟩
      rw [hcount, BitVec.ofNat_toNat, BitVec.setWidth_eq]
  · rintro ⟨⟨hcount, hbound⟩, rfl⟩
    exact decodeTokens_eq_some_iff.mpr ⟨(toNat_ofNat_of_le_maxCount hcount).symm, hbound, rfl⟩

/-! ### Opcodes -/

/-- The opcode of a field's setter is the field's number (30_encoding.md R69, R75). -/
def setterOp (f : Field) : Byte := BitVec.ofNat 8 f.index

section Equations
variable (bs : List Byte)

theorem decodeFrame_setterOp (f : Field) :
    decodeFrame (setterOp f :: bs) = (decodeElems f.elemWidth bs).map (setter f) := by cases f <;> rfl
theorem decodeFrame_unpack : decodeFrame (0x11#8 :: bs) = (decodeBuffer bs).map .unpack := rfl
theorem decodeFrame_appendByte : decodeFrame (0x12#8 :: bs) = (decodeByte bs).map .appendByte := rfl
theorem decodeFrame_readText : decodeFrame (0x13#8 :: bs) = (decodeText bs).map .readText := rfl

theorem decodeFrame_of_formatOf_eq_none {op : Byte} (h : formatOf op = none) : decodeFrame (op :: bs) = none := by
  simp only [decodeFrame]
  split <;> simp_all [formatOf]

theorem frameLength_setterOp (f : Field) :
    frameLength (setterOp f :: bs) = bs.head?.map fun n => 2 + n.toNat * f.elemWidth := by cases f <;> rfl

end Equations

/-- The opcode map (30_encoding.md R75, R76). -/
theorem opcode_cases (op : Byte) :
    (∃ f, op = setterOp f) ∨ op = 0x10#8 ∨ op = 0x11#8 ∨ op = 0x12#8 ∨ op = 0x13#8 ∨ op = 0x20#8 ∨ op = 0x21#8 ∨
      formatOf op = none := by
  have hop : ∀ c : Byte, op.toNat = c.toNat → op = c := fun _ h => BitVec.eq_of_toNat_eq h
  unfold formatOf
  split
  · next h => exact .inl ⟨.motor, hop _ h⟩
  · next h => exact .inl ⟨.switch, hop _ h⟩
  · next h => exact .inl ⟨.pot, hop _ h⟩
  · next h => exact .inl ⟨.diode, hop _ h⟩
  · next h => exact .inl ⟨.temp, hop _ h⟩
  · next h => exact .inl ⟨.imu, hop _ h⟩
  · next h => simp [hop 0x10#8 h]
  · next h => simp [hop 0x11#8 h]
  · next h => simp [hop 0x12#8 h]
  · next h => simp [hop 0x13#8 h]
  · next h => simp [hop 0x20#8 h]
  · next h => simp [hop 0x21#8 h]
  · simp

/-- The bytes between the groups of the opcode map are unassigned (30_encoding.md R76). -/
theorem formatOf_eq_none_of_unassigned {op : Byte}
    (hop : (0x06 ≤ op.toNat ∧ op.toNat ≤ 0x0F) ∨ (0x14 ≤ op.toNat ∧ op.toNat ≤ 0x1F) ∨ 0x22 ≤ op.toNat) :
    formatOf op = none := by
  rcases opcode_cases op with ⟨f, rfl⟩ | rfl | rfl | rfl | rfl | rfl | rfl | hnone
  · have hf : (setterOp f).toNat ≤ 5 := by cases f <;> decide
    omega
  · exact absurd hop (by decide)
  · exact absurd hop (by decide)
  · exact absurd hop (by decide)
  · exact absurd hop (by decide)
  · exact absurd hop (by decide)
  · exact absurd hop (by decide)
  · exact hnone

/-! ### Whole frames -/

theorem setter_wf (f : Field) (vs : List Nat) : (setter f vs).wf = true ↔ vs.length ≤ maxCount := by
  cases f <;> simp [setter, Instr.wf]

/-- The frame of a setter whose elements fit their width. -/
theorem encode_setter (f : Field) {vs : List Nat} (h : ∀ v ∈ vs, v < 256 ^ f.elemWidth) :
    encode (setter f vs) = setterOp f :: BitVec.ofNat 8 vs.length :: (vs.flatMap fun v => leBytes v f.elemWidth) := by
  have hcut : encode (setter f vs) = encodeElems (setterOp f) f.elemWidth (vs.map fun v => v % 256 ^ f.elemWidth) := by
    cases f <;> simp [setter, encode, setterOp, Field.index, Field.elemWidth, Function.comp_def]
  have hfit : (vs.map fun v => v % 256 ^ f.elemWidth) = vs :=
    (List.map_congr_left fun v hv => Nat.mod_eq_of_lt (h v hv)).trans (List.map_id vs)
  rw [hcut, hfit, encodeElems]

/-- Every command is a setter of elements that fit their width, or one of the other six. -/
theorem instr_cases (i : Instr) :
    (∃ f vs, (∀ v ∈ vs, v < 256 ^ Field.elemWidth f) ∧ i = setter f vs) ∨ i = .pack ∨ (∃ d, i = .unpack d) ∨
      (∃ b, i = .appendByte b) ∨ (∃ ts, i = .readText ts) ∨ i = .getSensors ∨ i = .getPayload := by
  have toNat_lt : ∀ {w k : Nat} (vs : List (BitVec w)), 2 ^ w = 256 ^ k → ∀ v ∈ vs.map BitVec.toNat, v < 256 ^ k := by
    intro w k vs hw v hv
    obtain ⟨x, -, rfl⟩ := List.mem_map.mp hv
    exact hw ▸ x.isLt
  have ofNat_toNat : ∀ {w : Nat} (vs : List (BitVec w)), (vs.map BitVec.toNat).map (BitVec.ofNat w) = vs := by
    intro w vs
    simp [Function.comp_def]
  cases i with
  | setMotor vs => exact .inl ⟨.motor, _, toNat_lt vs rfl, congrArg Instr.setMotor (ofNat_toNat vs).symm⟩
  | setSwitch vs => exact .inl ⟨.switch, _, toNat_lt vs rfl, congrArg Instr.setSwitch (ofNat_toNat vs).symm⟩
  | setPot vs => exact .inl ⟨.pot, _, toNat_lt vs rfl, congrArg Instr.setPot (ofNat_toNat vs).symm⟩
  | setDiode vs => exact .inl ⟨.diode, _, toNat_lt vs rfl, congrArg Instr.setDiode (ofNat_toNat vs).symm⟩
  | setTemp vs => exact .inl ⟨.temp, _, toNat_lt vs rfl, congrArg Instr.setTemp (ofNat_toNat vs).symm⟩
  | setImu vs => exact .inl ⟨.imu, _, toNat_lt vs rfl, congrArg Instr.setImu (ofNat_toNat vs).symm⟩
  | pack => simp
  | unpack d => simp
  | appendByte b => simp
  | readText ts => simp
  | getSensors => simp
  | getPayload => simp

/-- Settles O1: the operand bytes of each format are read back as they were written. -/
theorem encodedCommandsDecodeBack : Obligations.EncodedCommandsDecodeBack := by
  intro i hi
  rcases instr_cases i with ⟨f, vs, hbound, rfl⟩ | rfl | ⟨d, rfl⟩ | ⟨b, rfl⟩ | ⟨ts, rfl⟩ | rfl | rfl
  · rw [encode_setter f hbound, decodeFrame_setterOp,
      decodeElems_eq_some_iff.mpr ⟨(setter_wf f vs).mp hi, hbound, rfl⟩, Option.map_some]
  · rfl
  · rw [encode, decodeFrame_unpack, decodeBuffer_eq_some_iff.mpr ⟨of_decide_eq_true hi, rfl⟩, Option.map_some]
  · rfl
  · rw [encode, decodeFrame_readText, decodeText_eq_some_iff.mpr ⟨hi, rfl⟩, Option.map_some]
  · rfl
  · rfl

/-- Settles O2: the opcode fixes the format, and the operand bytes read in a format are those written in it. -/
theorem decodedFramesEncodeBack : Obligations.DecodedFramesEncodeBack := by
  intro frame i h
  rcases frame with _ | ⟨op, bs⟩
  · cases h
  rcases opcode_cases op with ⟨f, rfl⟩ | rfl | rfl | rfl | rfl | rfl | rfl | hop
  · rw [decodeFrame_setterOp, Option.map_eq_some_iff] at h
    obtain ⟨vs, hvs, rfl⟩ := h
    obtain ⟨hcount, hbound, rfl⟩ := decodeElems_eq_some_iff.mp hvs
    exact ⟨(setter_wf f vs).mpr hcount, encode_setter f hbound⟩
  · obtain ⟨rfl, rfl⟩ := decodeNone_eq_some_iff.mp h
    exact ⟨rfl, rfl⟩
  · rw [decodeFrame_unpack, Option.map_eq_some_iff] at h
    obtain ⟨d, hd, rfl⟩ := h
    obtain ⟨hcount, rfl⟩ := decodeBuffer_eq_some_iff.mp hd
    exact ⟨decide_eq_true hcount, rfl⟩
  · rw [decodeFrame_appendByte, Option.map_eq_some_iff] at h
    obtain ⟨b, hb, rfl⟩ := h
    obtain rfl := decodeByte_eq_some_iff.mp hb
    exact ⟨rfl, rfl⟩
  · rw [decodeFrame_readText, Option.map_eq_some_iff] at h
    obtain ⟨ts, hts, rfl⟩ := h
    obtain ⟨hwf, rfl⟩ := decodeText_eq_some_iff.mp hts
    exact ⟨hwf, rfl⟩
  · obtain ⟨rfl, rfl⟩ := decodeNone_eq_some_iff.mp h
    exact ⟨rfl, rfl⟩
  · obtain ⟨rfl, rfl⟩ := decodeNone_eq_some_iff.mp h
    exact ⟨rfl, rfl⟩
  · rw [decodeFrame_of_formatOf_eq_none bs hop] at h
    cases h

/-! ### Frame lengths (R74, R79) -/

theorem decodeElems_isSome_iff (ew : Nat) (bs : List Byte) :
    (decodeElems ew bs).isSome = true ↔ (bs.head?.map fun n => 2 + n.toNat * ew) = some (bs.length + 1) := by
  rcases bs with _ | ⟨n, bs⟩
  · simp [decodeElems]
  · have hlen : 2 + n.toNat * ew = bs.length + 1 + 1 ↔ bs.length = n.toNat * ew := by omega
    simp [decodeElems, hlen]

theorem decodeBuffer_isSome_iff (bs : List Byte) :
    (decodeBuffer bs).isSome = true ↔ (bs.head?.map fun l => 2 + l.toNat) = some (bs.length + 1) := by
  rcases bs with _ | ⟨l, bs⟩
  · simp [decodeBuffer]
  · have hlen : 2 + l.toNat = bs.length + 1 + 1 ↔ bs.length = l.toNat := by omega
    simp [decodeBuffer, hlen]

theorem decodeByte_isSome_iff (bs : List Byte) : (decodeByte bs).isSome = true ↔ some 2 = some (bs.length + 1) := by
  rcases bs with _ | ⟨b, _ | ⟨c, bs⟩⟩ <;> simp [decodeByte]

theorem decodeNone_isSome_iff (i : Instr) (bs : List Byte) :
    (decodeNone i bs).isSome = true ↔ some 1 = some (bs.length + 1) := by
  cases bs <;> simp [decodeNone]

/-- Tokens are read exactly when the walk over them ends at the end of the bytes. -/
theorem decodeTokens_isSome_iff (n : Nat) (bs : List Byte) :
    (decodeTokens n bs).isSome = true ↔ tokenWalk n bs = some bs.length := by
  induction n generalizing bs with
  | zero => cases bs <;> simp [decodeTokens, tokenWalk]
  | succ n ih =>
    rcases bs with _ | ⟨len, bs⟩
    · simp [decodeTokens, tokenWalk]
    · have hih := ih (bs.drop len.toNat)
      rw [List.length_drop] at hih
      simp only [decodeTokens, tokenWalk, List.length_cons, Option.map_eq_some_iff]
      by_cases hlen : len.toNat ≤ bs.length
      · rw [if_pos hlen, Option.isSome_map, hih]
        constructor
        · intro h
          exact ⟨_, h, by omega⟩
        · rintro ⟨k, hk, hsum⟩
          rw [hk]
          congr 1
          omega
      · rw [if_neg hlen]
        constructor
        · intro h
          cases h
        · rintro ⟨k, -, hsum⟩
          omega

theorem decodeText_isSome_iff (bs : List Byte) :
    (decodeText bs).isSome = true ↔ frameLength (0x13#8 :: bs) = some (bs.length + 1) := by
  rcases bs with _ | ⟨t, bs⟩
  · simp [decodeText, frameLength, formatOf]
  · have hlen : frameLength (0x13#8 :: t :: bs) = (tokenWalk t.toNat bs).map fun k => 2 + k := rfl
    rw [decodeText, decodeTokens_isSome_iff, hlen, List.length_cons, Option.map_eq_some_iff]
    constructor
    · intro h
      exact ⟨_, h, by omega⟩
    · rintro ⟨k, hk, hsum⟩
      rw [hk]
      congr 1
      omega

theorem frameLength_of_formatOf_eq_none {op : Byte} (h : formatOf op = none) (bs : List Byte) :
    frameLength (op :: bs) = none := by
  simp only [frameLength, h]

/-- Settles O3: format by format, the operand bytes are read exactly when there are as many as the frame's length says. -/
theorem framesAreWellFormedByLength : Obligations.FramesAreWellFormedByLength := by
  rintro (_ | ⟨op, bs⟩)
  · simp [decodeFrame, frameLength]
  rw [List.length_cons]
  rcases opcode_cases op with ⟨f, rfl⟩ | rfl | rfl | rfl | rfl | rfl | rfl | hop
  · rw [decodeFrame_setterOp, Option.isSome_map, frameLength_setterOp]
    exact decodeElems_isSome_iff _ bs
  · exact decodeNone_isSome_iff _ bs
  · rw [decodeFrame_unpack, Option.isSome_map]
    exact decodeBuffer_isSome_iff bs
  · rw [decodeFrame_appendByte, Option.isSome_map]
    exact decodeByte_isSome_iff bs
  · rw [decodeFrame_readText, Option.isSome_map]
    exact decodeText_isSome_iff bs
  · exact decodeNone_isSome_iff _ bs
  · exact decodeNone_isSome_iff _ bs
  · simp [decodeFrame_of_formatOf_eq_none bs hop, frameLength_of_formatOf_eq_none hop]

/-- A walk that ends is not changed by the bytes after it. -/
theorem tokenWalk_append {n k : Nat} {bs : List Byte} (h : tokenWalk n bs = some k) (rest : List Byte) :
    tokenWalk n (bs ++ rest) = some k := by
  induction n generalizing bs k rest with
  | zero => exact h
  | succ n ih =>
    rcases bs with _ | ⟨len, bs⟩
    · cases h
    · rw [tokenWalk, Option.map_eq_some_iff] at h
      obtain ⟨j, hj, rfl⟩ := h
      rw [List.cons_append, tokenWalk, List.drop_append, ih hj]
      rfl

/-- A frame length that the bytes tell is not changed by the bytes after them. -/
theorem frameLength_append {bs : List Byte} {n : Nat} (h : frameLength bs = some n) (rest : List Byte) :
    frameLength (bs ++ rest) = some n := by
  rcases bs with _ | ⟨op, bs⟩
  · cases h
  have head_append : ∀ {g : Byte → Nat}, bs.head?.map g = some n → (bs ++ rest).head?.map g = some n := by
    intro g hg
    cases bs with
    | nil => cases hg
    | cons b bs => exact hg
  rw [List.cons_append]
  rcases opcode_cases op with ⟨f, rfl⟩ | rfl | rfl | rfl | rfl | rfl | rfl | hop
  · rw [frameLength_setterOp] at h ⊢
    exact head_append h
  · exact h
  · exact head_append h
  · exact h
  · rcases bs with _ | ⟨t, bs⟩
    · cases h
    · obtain ⟨k, hk, rfl⟩ := Option.map_eq_some_iff.mp (show (tokenWalk t.toNat bs).map (fun k => 2 + k) = some n from h)
      exact congrArg (Option.map fun k => 2 + k) (tokenWalk_append hk rest)
  · exact h
  · exact h
  · rw [frameLength_of_formatOf_eq_none hop] at h
    cases h

theorem frameLength_encode_append {i : Instr} (hi : i.wf = true) (rest : List Byte) :
    frameLength (encode i ++ rest) = some (encode i).length := by
  refine frameLength_append ((framesAreWellFormedByLength _).mp ?_) rest
  rw [encodedCommandsDecodeBack i hi, Option.isSome_some]

/-- The command at the front of a stream is read with the bytes after its frame. -/
theorem decodeStream_encode_append {i : Instr} (hi : i.wf = true) (rest : List Byte) :
    decodeStream (encode i ++ rest) = some (i, rest) := by
  simp only [decodeStream, frameLength_encode_append hi, List.take_left, List.drop_left, if_true,
    encodedCommandsDecodeBack i hi, Option.map_some]

/-- Settles O4: the length of a READ_TEXT frame is that of the command's encoding, whatever follows it. -/
theorem streamFrameLengths : Obligations.StreamFrameLengths := by
  refine ⟨fun op rest hop => frameLength_of_formatOf_eq_none hop rest, fun _ => ⟨rfl, rfl, rfl⟩, fun _ => rfl,
    fun f n rest => frameLength_setterOp (n :: rest) f, fun _ _ => rfl, fun ts rest hcount hbound => ?_,
    fun i rest hi => decodeStream_encode_append hi rest⟩
  have hwf : Instr.wf (.readText ts) = true := by simpa [Instr.wf] using ⟨hcount, hbound⟩
  exact (frameLength_encode_append hwf rest).trans (congrArg some (Laws.EncodedLength.readText ts))

/-- Settles O5: each frame is read byte by byte. -/
theorem writtenFramesDecode : Obligations.WrittenFramesDecode := by
  unfold Obligations.WrittenFramesDecode
  decide

/-- Settles O60: each line is read character by character, and its command is one that a frame carries. -/
theorem programLinesAssemble : Obligations.ProgramLinesAssemble := by
  unfold Obligations.ProgramLinesAssemble
  decide

end Sys2Proof
end

/-! ## Payloads: their length and the place of each field -/

section
namespace Sys2Proof

/-! ### The length (R64) -/

/-- A sum over the fields selected adds the width of each field where it is selected. -/
theorem sum_width_filter (p : Field → Bool) (fs : List Field) :
    ((fs.filter p).map Field.width).sum = (fs.map fun f => if p f then f.width else 0).sum := by
  induction fs with
  | nil => rfl
  | cons f fs ih => by_cases hf : p f <;> simp [hf, ih]

/-- `Req(m)` is the sum of the widths written out (00_scope.md R8, R13). -/
theorem req_eq_need (m : Byte) : req m = Claims.need m := by
  rw [req, presentFields, sum_width_filter]
  simp [Claims.need, Field.inOrder, Field.index, Field.width, Field.count, Field.elemWidth, Nat.add_assoc]

/-- Settles O39: `Req(m)` counts the mask byte and adds field widths that come to at most 46. -/
theorem payloadLengthBounds : Obligations.PayloadLengthBounds := by
  refine ⟨fun m r => ?_, by decide, by decide, req_eq_need⟩
  rw [← req_eq_need]
  exact ⟨Machine.payload_length m r, Machine.req_pos m, Machine.req_le m⟩

/-! ### The offsets (R65) -/

theorem mem_presentFields {m : Byte} {f : Field} : f ∈ presentFields m ↔ m.getLsbD f.index = true := by
  rw [presentFields, List.mem_filter]
  have hmem : f ∈ Field.inOrder := by cases f <;> decide
  simp [hmem]

/-- Present fields stand by rising field number. -/
theorem presentFields_pairwise (m : Byte) : (presentFields m).Pairwise fun f g => f.index < g.index :=
  List.Pairwise.filter _ (by decide)

/-- In blocks laid side by side for fields of rising number, the block of `f` begins where the blocks of the fields before
`f` end. -/
theorem getElem?_flatMap_of_sorted {fs : List Field} (hsorted : fs.Pairwise fun f g => f.index < g.index)
    {block : Field → List Byte} (hblock : ∀ g, (block g).length = g.width) {f : Field} (hf : f ∈ fs) {k : Nat}
    (hk : k < f.width) :
    (fs.flatMap block)[((fs.filter fun g => decide (g.index < f.index)).map Field.width).sum + k]? = (block f)[k]? := by
  induction fs with
  | nil => cases hf
  | cons g fs ih =>
    obtain ⟨hg, hfs⟩ := List.pairwise_cons.mp hsorted
    rw [List.flatMap_cons]
    rcases List.mem_cons.mp hf with rfl | hf
    · have hnone : ((f :: fs).filter fun g => decide (g.index < f.index)) = [] := by
        rw [List.filter_eq_nil_iff]
        intro g hmem
        rcases List.mem_cons.mp hmem with rfl | hmem
        · simp
        · simpa using (hg g hmem).le
      rw [hnone, List.map_nil, List.sum_nil, Nat.zero_add, List.getElem?_append_left (by rwa [hblock])]
    · rw [List.filter_cons_of_pos (by simpa using hg f hf), List.map_cons, List.sum_cons, Nat.add_assoc, ← hblock g,
        List.getElem?_append_right (Nat.le_add_right _ _), Nat.add_sub_cancel_left, ih hfs hf]

/-- Adjacent blocks of one size: place `i` of block `j`. -/
theorem getElem?_flatMap_range {w n j i : Nat} {block : Nat → List Byte} (hblock : ∀ j, (block j).length = w) (hj : j < n)
    (hi : i < w) : ((List.range n).flatMap block)[w * j + i]? = (block j)[i]? := by
  induction n with
  | zero => cases hj
  | succ n ih =>
    have hlen : ((List.range n).flatMap block).length = n * w := Machine.flatMap_range_length w n block hblock
    rw [List.range_succ, List.flatMap_append, List.flatMap_singleton]
    rcases Nat.lt_succ_iff_lt_or_eq.mp hj with hlt | rfl
    · rw [List.getElem?_append_left (hlen ▸ Nat.mul_add_lt_mul_of_lt_of_lt hlt hi), ih hlt]
    · rw [Nat.mul_comm, ← hlen, List.getElem?_append_right (Nat.le_add_right _ _), Nat.add_sub_cancel_left]

namespace Machine

theorem payload_getElem?_field {m : Byte} {f : Field} (hf : m.getLsbD f.index = true) (r : Snapshot) {k : Nat}
    (hk : k < f.width) : (payload m r)[fieldOffset m f + k]? = (r.fieldBytes f)[k]? := by
  rw [payload, fieldOffset, Nat.add_assoc, Nat.add_comm 1, List.getElem?_cons_succ]
  exact getElem?_flatMap_of_sorted (presentFields_pairwise m) r.fieldBytes_length (mem_presentFields.mpr hf) hk

/-! ### PACK when the payload fits (41_pack.md R110) -/

/-- The state after a PACK whose payload fits. -/
def State.packed (s : State) : State :=
  ((s.setPbuf (Memory.writeBytes s.pbuf 0 (payload (fieldBits s.mask) s.regs))).clearPresent (fieldBits s.mask)).respond
    (okFrame [BitVec.ofNat 8 (req (fieldBits s.mask))])

theorem exec_pack_of_fits {s : State} (h : Claims.need (fieldBits s.mask) ≤ s.params.cap) :
    exec .pack s = .next s.packed := by
  rw [← req_eq_need] at h
  rw [exec_eq_runCommand]
  rcases packBody_cases s with ⟨-, hok⟩ | ⟨hover, -⟩
  · exact runCommand_of_ok hok
  · omega

@[simp] theorem State.packed_regs (s : State) : s.packed.regs = s.regs := rfl
@[simp] theorem State.packed_mask (s : State) : s.packed.mask = s.mask &&& ~~~fieldBits s.mask := rfl
@[simp] theorem State.packed_responses (s : State) :
    s.packed.responses = s.responses ++ [okFrame [BitVec.ofNat 8 (req (fieldBits s.mask))]] := rfl

/-- PACK stores each byte of the payload at its own place. -/
theorem State.packed_pbufByte {s : State} {a : Nat} {b : Byte} (h : (payload (fieldBits s.mask) s.regs)[a]? = some b) :
    s.packed.pbufByte a = b := by
  obtain ⟨hlt, -⟩ := List.getElem?_eq_some_iff.mp h
  have hstored := s.setPbuf_writeBytes_pbufByte 0 (payload (fieldBits s.mask) s.regs) a
  rw [if_pos (by omega), Nat.sub_zero, h] at hstored
  exact hstored

theorem getLsbD_fieldBits (m : Byte) (f : Field) : (fieldBits m).getLsbD f.index = m.getLsbD f.index := by
  cases f <;> simp [fieldBits, Field.index]

/-- Settles O38: the payload has the field's bytes at the field's offset, and PACK stores the payload from offset 0. -/
theorem fieldsStandAtTheirOffsets : Obligations.FieldsStandAtTheirOffsets := by
  intro s f hfit hf
  rw [← getLsbD_fieldBits] at hf
  refine ⟨s.packed, exec_pack_of_fits hfit, fun k hk => State.packed_pbufByte ?_⟩
  refine (payload_getElem?_field hf s.regs hk).trans ?_
  rw [List.getElem?_eq_getElem (by simpa using hk), Option.getD_some]

/-! ### Elements in the buffer (20_memory.md R45) -/

/-- The bytes read at `n` rising offsets. -/
def State.bytesAt (s : State) (off n : Nat) : List Byte := (List.range n).map fun i => s.pbufByte (off + i)

/-- Element `j` of a present field stands, little-endian, `j` element widths after the field's offset. -/
theorem State.packed_bytesAt (s : State) {f : Field} (hf : (fieldBits s.mask).getLsbD f.index = true) {j : Nat}
    (hj : j < f.count) :
    s.packed.bytesAt (fieldOffset (fieldBits s.mask) f + f.elemWidth * j) f.elemWidth =
      leBytes (s.regs.elem f j) f.elemWidth := by
  refine List.ext_getElem (by simp [State.bytesAt]) fun i h₁ h₂ => ?_
  have hi : i < f.elemWidth := by simpa using h₂
  have hk : f.elemWidth * j + i < f.width := Nat.mul_add_lt_mul_of_lt_of_lt hj hi
  have hbyte : (payload (fieldBits s.mask) s.regs)[fieldOffset (fieldBits s.mask) f + f.elemWidth * j + i]? =
      some (leBytes (s.regs.elem f j) f.elemWidth)[i] := by
    rw [Nat.add_assoc, payload_getElem?_field hf s.regs hk, Snapshot.fieldBytes,
      getElem?_flatMap_range (fun _ => leBytes_length _ _) hj hi, List.getElem?_eq_getElem h₂]
  simpa [State.bytesAt] using State.packed_pbufByte hbyte

theorem extractLsb'_eq_ofNat {w : Nat} (v : BitVec w) (k : Nat) : v.extractLsb' k 8 = BitVec.ofNat 8 (v.toNat / 2 ^ k) :=
  BitVec.eq_of_toNat_eq (by simp [Nat.shiftRight_eq_div_pow])

theorem leBytes_toNat_one (v : Byte) : leBytes v.toNat 1 = [v] := by simp

theorem leBytes_toNat_two (v : Half) : leBytes v.toNat 2 = Claims.le16 v := by
  simp [Claims.le16, extractLsb'_eq_ofNat]

theorem leBytes_toNat_four (v : Pattern) : leBytes v.toNat 4 = Claims.le32 v := by
  simp [Claims.le32, extractLsb'_eq_ofNat, Nat.div_div_eq_div_mul]

theorem Snapshot.elem_motor (r : Snapshot) {j : Nat} (hj : j < 4) : r.elem .motor j = r.enc[j].toNat := by
  simp [Snapshot.elem, hj]

theorem Snapshot.elem_switch (r : Snapshot) {j : Nat} (hj : j < 4) : r.elem .switch j = r.sw[j].toNat := by
  simp [Snapshot.elem, hj]

theorem Snapshot.elem_pot (r : Snapshot) {j : Nat} (hj : j < 2) : r.elem .pot j = r.pot[j].toNat := by
  simp [Snapshot.elem, hj]

theorem Snapshot.elem_imu (r : Snapshot) {j : Nat} (hj : j < 6) : r.elem .imu j = r.imu[j].toNat := by
  simp [Snapshot.elem, hj]

/-- Settles O37: with the mask 0x3F every field is present, at the offset that the widths before it add up to. -/
theorem fullPayloadOffsets : Obligations.FullPayloadOffsets := by
  intro s hmask hcap
  have hfull : fieldBits s.mask = 0x3F#8 := hmask
  have hneed : Claims.need 0x3F#8 = 47 := by decide
  have hreq : req 0x3F#8 = 47 := by decide
  have helem : ∀ (f : Field) j, j < f.count →
      s.packed.bytesAt (fieldOffset 0x3F#8 f + f.elemWidth * j) f.elemWidth = leBytes (s.regs.elem f j) f.elemWidth := by
    intro f j hj
    have h := s.packed_bytesAt (f := f) (j := j)
    rw [hfull] at h
    exact h (by cases f <;> decide) hj
  refine ⟨s.packed, exec_pack_of_fits (by rw [hfull, hneed]; exact hcap), ?_, ?_, fun j hj => ?_, fun j hj => ?_,
    fun j hj => ?_, ?_, ?_, fun j hj => ?_⟩
  · rw [State.packed_responses, hfull, hreq]
    rfl
  · exact State.packed_pbufByte (congrArg some hfull)
  · rw [← leBytes_toNat_two, ← Snapshot.elem_motor _ hj, show 2 + 2 * j = 1 + 2 * j + 1 by omega]
    exact helem .motor j hj
  · have h := helem .switch j hj
    rw [Snapshot.elem_switch _ hj, Field.elemWidth, leBytes_toNat_one, Nat.one_mul] at h
    exact List.singleton_inj.mp h
  · rw [← leBytes_toNat_two, ← Snapshot.elem_pot _ hj, show 14 + 2 * j = 13 + 2 * j + 1 by omega]
    exact helem .pot j hj
  · rw [← leBytes_toNat_two]
    exact helem .diode 0 (by decide)
  · rw [← leBytes_toNat_four]
    exact helem .temp 0 (by decide)
  · rw [← leBytes_toNat_four, ← Snapshot.elem_imu _ hj, show 24 + 4 * j = 23 + 4 * j + 1 by omega,
      show 25 + 4 * j = 23 + 4 * j + 2 by omega, show 26 + 4 * j = 23 + 4 * j + 3 by omega]
    exact helem .imu j hj

/-! ### The pseudo-instructions (R81) -/

theorem exec_cursorReset (s : State) :
    exec (cursorReset s.params.sentinel) s = .next ((s.setCursor 0).respond (okFrame [0#8])) := by
  rw [exec_eq_runCommand]
  rcases appendBody_cases s.params.sentinel s with ⟨-, h⟩ | ⟨hne, -⟩ | ⟨hne, -⟩
  · exact runCommand_of_ok h
  · exact absurd rfl hne
  · exact absurd rfl hne

/-- No field is pending after PACK has cleared the field bits. -/
theorem fieldBits_and_not_fieldBits (m : Byte) : fieldBits (m &&& ~~~fieldBits m) = 0#8 := by
  calc fieldBits (m &&& ~~~fieldBits m) = fieldBits m &&& ~~~fieldBits m := by unfold fieldBits; ac_rfl
    _ = 0#8 := BitVec.and_not_self _

/-- Settles O49: the sentinel resets the cursor, and a PACK that fits clears the fields it has written. -/
theorem pseudoInstructionsExpand : Obligations.PseudoInstructionsExpand :=
  ⟨exec_cursorReset, fun s hfit =>
    ⟨s.packed, exec_pack_of_fits hfit, fieldBits_and_not_fieldBits s.mask, s.packed_regs⟩⟩

end Machine
end Sys2Proof
end

/-! ## The port: one request at a time -/

section
namespace Sys2Proof.Machine

/-! ### The step, case by case -/

theorem afterResponse_eq_afterWait (events : List HostEvent) : afterResponse events = Claims.afterWait events := by
  rcases events with _ | ⟨_ | _ | _, _⟩ <;> rfl

theorem step_of_reset {s : State} {rest : List HostEvent} (hh : s.host = .reset :: rest) :
    step s = .next (s.setHost rest).resetBlock := by
  simp only [step, portStep, hh]

theorem step_of_request {s : State} {f : Frame} {rest : List HostEvent} (hp : s.port = .idle)
    (hh : s.host = .request f :: rest) : step s = .next (s.accept f rest) := by
  simp only [step, portStep, hh, hp]

/-- A busy port that is not reset runs its request, and the host's wait is over. -/
theorem step_of_busy {s : State} {f : Frame} (hp : s.port = .busy f) (hh : Claims.noReset s) :
    step s = runRequest f (s.setHost (Claims.afterWait s.host)) := by
  rw [← afterResponse_eq_afterWait]
  rcases step_cases s with ⟨rest, hreset, -⟩ | ⟨g, hbusy, -, h⟩ | ⟨_, _, hidle, -⟩ | ⟨_, hidle, -⟩ | ⟨hidle, -⟩
  · exact absurd hreset (hh rest)
  · cases hp.symm.trans hbusy
    exact h
  · cases hp.symm.trans hidle
  · cases hp.symm.trans hidle
  · cases hp.symm.trans hidle

theorem runRequest_of_some {f : Frame} {i : Instr} (h : decodeFrame f = some i) (s : State) :
    runRequest f s = exec i s := by
  simp only [runRequest, h]

theorem runRequest_of_none {f : Frame} (h : decodeFrame f = none) (s : State) : runRequest f s = rejectFrame f s := by
  simp only [runRequest, h]

/-- Settles O6: an unassigned opcode has no format, so that its request is no command and is rejected. -/
theorem unassignedOpcodesAreIllegal : Obligations.UnassignedOpcodesAreIllegal := by
  intro op rest s hop hp hh
  have hnone := decodeFrame_of_formatOf_eq_none rest (formatOf_eq_none_of_unassigned hop)
  rw [step_of_busy hp hh, runRequest_of_none hnone]
  rfl

/-! ### One response for one request (R61) -/

theorem exec_answers (i : Instr) (s : State) :
    ∃ t r, exec i s = .next t ∧ t.port = .idle ∧ t.responses = s.responses ++ [r] ∧ t.host = s.host := by
  obtain ⟨t, h⟩ := exec_total i s
  rcases exec_next_cases h with ⟨u, res, hb, rfl⟩ | ⟨e, rfl⟩
  · obtain ⟨-, -, -, hhost, hresponses⟩ := bodyOf_ok_keeps hb
    exact ⟨_, okFrame res, h, rfl, by rw [State.respond_responses, hresponses], hhost⟩
  · exact ⟨_, e.frame, h, rfl, rfl, rfl⟩

theorem runRequest_answers (f : Frame) (s : State) :
    ∃ t r, runRequest f s = .next t ∧ t.port = .idle ∧ t.responses = s.responses ++ [r] ∧ t.host = s.host := by
  rcases hf : decodeFrame f with _ | i
  · rw [runRequest_of_none hf]
    exact ⟨_, _, rfl, rfl, rfl, rfl⟩
  · rw [runRequest_of_some hf]
    exact exec_answers i s

theorem step_of_busy_answers {s : State} {f : Frame} (hp : s.port = .busy f) (hh : Claims.noReset s) :
    ∃ t r, step s = .next t ∧ t.port = .idle ∧ t.responses = s.responses ++ [r] ∧ t.host = Claims.afterWait s.host := by
  rw [step_of_busy hp hh]
  exact runRequest_answers f _

/-- Settles O10: an idle port accepts, a busy one answers once and leaves the host's next request alone, and reset answers
nothing. -/
theorem portTakesOneRequestAtATime : Obligations.PortTakesOneRequestAtATime := by
  refine ⟨fun s f rest hp hh => step_of_request hp hh, fun s f g rest hp hh => ?_, fun s f hp hh => ?_,
    fun s f rest _ hh => ⟨_, step_of_reset hh, rfl, rfl⟩⟩
  · have hno : Claims.noReset s := fun r hr => by cases hh.symm.trans hr
    obtain ⟨t, r, hstep, hidle, hresponses, hhost⟩ := step_of_busy_answers hp hno
    rw [hh] at hhost
    exact ⟨t, r, hstep, hidle, hresponses, hhost⟩
  · obtain ⟨t, r, hstep, hidle, hresponses, -⟩ := step_of_busy_answers hp hh
    exact ⟨t, r, hstep, hidle, hresponses⟩

/-! ### The command of a request (R60) -/

/-- A busy port whose request is a command executes it. -/
theorem step_of_command {s : State} {f : Frame} {i : Instr} (hp : s.port = .busy f) (hh : Claims.noReset s)
    (hf : decodeFrame f = some i) : step s = exec i (s.setHost (Claims.afterWait s.host)) := by
  rw [step_of_busy hp hh, runRequest_of_some hf]

/-- Settles O11: a placed table word is a request accepted from a host that waits, so that the next step executes it. -/
theorem stepRunsTheDecodedCommand : Obligations.StepRunsTheDecodedCommand := by
  refine ⟨fun s f i hp hh hf => step_of_command hp hh hf, fun s nbits w i hw => ⟨tableFrame nbits w, hw, ?_⟩⟩
  have hno : Claims.noReset (s.withFetchWord nbits w) := fun rest h => by cases h
  exact step_of_command rfl hno hw

theorem run_one (s : State) : Host.Core.run Sys2Proof.core 1 s = step s := by
  obtain ⟨t, h⟩ := step_total s
  rw [run_succ_of_step h, h]
  rfl

/-- Settles O12: the first step accepts the request, the second executes its command. -/
theorem requestIsOneTransaction : Obligations.RequestIsOneTransaction := by
  intro s f rest i hp hh hrest hf
  rw [run_succ_of_step (step_of_request hp hh), run_one]
  exact step_of_command rfl hrest hf

end Sys2Proof.Machine
end

/-! # The setter family (40_setters.md): what a setter stores, and setters one after another -/

section
namespace Sys2Proof.Machine

open Sys2Proof.Claims

/-! ## The elements of a field stored (R106) -/

/-- An element read after all elements of a field are stored. -/
theorem Snapshot.elem_storeElems_all {f g : Field} {vs : List Nat} (hvs : vs.length = f.count) (r : Snapshot) {k : Nat}
    (hk : k < g.count) :
    (Snapshot.storeElems f 0 vs r).elem g k = if f = g then (vs[k]?.getD 0) % 256 ^ f.elemWidth else r.elem g k := by
  rw [Snapshot.elem_storeElems f 0 vs r hk (by omega), Nat.sub_zero]
  by_cases hfg : f = g
  · subst hfg
    rw [if_pos ⟨rfl, by omega, by omega⟩, if_pos rfl]
  · rw [if_neg fun h => hfg h.1, if_neg hfg]

/-- Storing as many elements as the field has makes these its elements and leaves the other fields alone. -/
theorem Snapshot.storeElems_eq_of_elems {r q : Snapshot} {f : Field} {vs : List Nat}
    (hown : (List.range f.count).map (q.elem f) = vs) (hothers : ∀ g, g ≠ f → ∀ j, q.elem g j = r.elem g j) :
    Snapshot.storeElems f 0 vs r = q := by
  subst hown
  refine Snapshot.ext_elem fun g k hk => ?_
  rw [Snapshot.elem_storeElems_all (by simp) r hk]
  split
  · next hfg =>
    subst hfg
    simp [hk, Nat.mod_eq_of_lt (q.elem_lt f k)]
  · next hfg => rw [hothers g (Ne.symm hfg)]

theorem Snapshot.storeElems_comm {f g : Field} (hfg : f ≠ g) {vs ws : List Nat} (hvs : vs.length = f.count)
    (hws : ws.length = g.count) (r : Snapshot) :
    Snapshot.storeElems g 0 ws (Snapshot.storeElems f 0 vs r) =
      Snapshot.storeElems f 0 vs (Snapshot.storeElems g 0 ws r) := by
  refine Snapshot.ext_elem fun e k hk => ?_
  rw [Snapshot.elem_storeElems_all hws _ hk, Snapshot.elem_storeElems_all hvs _ hk,
    Snapshot.elem_storeElems_all hvs _ hk, Snapshot.elem_storeElems_all hws _ hk]
  by_cases hfe : f = e
  · rw [if_neg fun hge => hfg (hfe.trans hge.symm), if_pos hfe, if_pos hfe]
  · rw [if_neg hfe, if_neg hfe]

theorem Snapshot.storeElems_storeElems {f : Field} {vs ws : List Nat} (hvs : vs.length = f.count)
    (hws : ws.length = f.count) (r : Snapshot) :
    Snapshot.storeElems f 0 ws (Snapshot.storeElems f 0 vs r) = Snapshot.storeElems f 0 ws r := by
  refine Snapshot.ext_elem fun g k hk => ?_
  rw [Snapshot.elem_storeElems_all hws _ hk, Snapshot.elem_storeElems_all hvs _ hk, Snapshot.elem_storeElems_all hws _ hk]
  by_cases hfg : f = g
  · rw [if_pos hfg, if_pos hfg]
  · rw [if_neg hfg, if_neg hfg, if_neg hfg]

/-- An element is cut to its width when it is stored. -/
theorem Snapshot.setElem_mod (r : Snapshot) (f : Field) (j v : Nat) :
    r.setElem f j (v % 256 ^ f.elemWidth) = r.setElem f j v := by
  have hcut : ∀ w, BitVec.ofNat w (v % 2 ^ w) = BitVec.ofNat w v := fun w => BitVec.eq_of_toNat_eq (by simp)
  have h8 : BitVec.ofNat 8 (v % 256) = BitVec.ofNat 8 v := hcut 8
  have h16 : BitVec.ofNat 16 (v % 65536) = BitVec.ofNat 16 v := hcut 16
  have h32 : BitVec.ofNat 32 (v % 4294967296) = BitVec.ofNat 32 v := hcut 32
  cases f <;> simp [Snapshot.setElem, Field.elemWidth, h8, h16, h32]

theorem Snapshot.storeElems_map_mod (f : Field) (j : Nat) (vs : List Nat) (r : Snapshot) :
    Snapshot.storeElems f j (vs.map fun v => v % 256 ^ f.elemWidth) r = Snapshot.storeElems f j vs r := by
  induction vs generalizing j r with
  | nil => rfl
  | cons v vs ih => rw [List.map_cons, Snapshot.storeElems, Snapshot.storeElems, Snapshot.setElem_mod, ih]

/-! ## The state after a setter -/

/-- What a setter with the right count makes of the state, but for its response. -/
def State.withField (s : State) (f : Field) (vs : List Nat) : State :=
  (s.setRegs (Snapshot.storeElems f 0 vs s.regs)).markPresent f

theorem State.withField_eq {s : State} {f : Field} {vs : List Nat} {q : Snapshot}
    (hq : Snapshot.storeElems f 0 vs s.regs = q) :
    s.withField f vs = { s with regs := q, mask := s.mask ||| fieldBit f } := by
  subst hq
  rfl

theorem State.withField_comm {f g : Field} (hfg : f ≠ g) {vs ws : List Nat} (hvs : vs.length = f.count)
    (hws : ws.length = g.count) (s : State) :
    (s.withField f vs).withField g ws = (s.withField g ws).withField f vs := by
  have hmask : s.mask ||| fieldBit f ||| fieldBit g = s.mask ||| fieldBit g ||| fieldBit f := by ac_rfl
  exact State.ext_fields (Snapshot.storeElems_comm hfg hvs hws s.regs) hmask rfl rfl rfl rfl rfl rfl rfl

theorem State.withField_withField {f : Field} {vs ws : List Nat} (hvs : vs.length = f.count) (hws : ws.length = f.count)
    (s : State) : (s.withField f vs).withField f ws = s.withField f ws := by
  have hmask : s.mask ||| fieldBit f ||| fieldBit f = s.mask ||| fieldBit f := by rw [BitVec.or_assoc, BitVec.or_self]
  exact State.ext_fields (Snapshot.storeElems_storeElems hvs hws s.regs) hmask rfl rfl rfl rfl rfl rfl rfl

/-! ## How a setter ends -/

/-- A setter's body does not depend on whether its values were cut to their width: they are cut as they are stored. -/
theorem bodyOf_setter (f : Field) (vs : List Nat) : bodyOf (setter f vs) = setField f vs := by
  have hcut : bodyOf (setter f vs) = setField f (vs.map fun v => v % 256 ^ f.elemWidth) := by
    cases f <;> simp [setter, bodyOf, Field.elemWidth, Function.comp_def]
  funext s
  rw [hcut, setField, setField, List.length_map, Snapshot.storeElems_map_mod]

section Ends
variable {i : Instr} {f : Field}

/-- With the right count a setter stores its field and answers 00. -/
theorem exec_of_count_eq {vs : List Nat} (hi : bodyOf i = setField f vs) (hvs : vs.length = f.count) (s : State) :
    exec i s = .next (answer (s.withField f vs) [0x00#8]) := by
  rw [exec_eq_runCommand, hi]
  rcases setField_cases f vs s with ⟨-, hok⟩ | ⟨hne, -⟩
  · exact runCommand_of_ok hok
  · exact absurd hvs hne

/-- With any other count a setter answers InvalidFieldCount and changes nothing. -/
theorem exec_of_count_ne {vs : List Nat} (hi : bodyOf i = setField f vs) (hvs : vs.length ≠ f.count) (s : State) :
    exec i s = .next (answer s [0x04#8, BitVec.ofNat 8 f.count, BitVec.ofNat 8 vs.length]) := by
  rw [exec_eq_runCommand, hi]
  rcases setField_cases f vs s with ⟨heq, -⟩ | ⟨-, herror⟩
  · exact absurd heq hvs
  · exact runCommand_of_error herror

end Ends

/-! ## What a setter leaves alone (R106) -/

theorem getLsbD_fieldBit (f : Field) (k : Nat) : (fieldBit f).getLsbD k = decide (k = f.index) := by
  have hindex : f.index < 8 := by cases f <;> decide
  simp [fieldBit, ← BitVec.twoPow_eq, hindex, eq_comm]

/-- Settles O33: a setter stores its own field's elements and adds its own field's bit, or only answers. -/
theorem setterFrame : Obligations.SetterFrame := by
  intro f vs s t h
  by_cases hvs : vs.length = f.count
  · rw [exec_of_count_eq (bodyOf_setter f vs) hvs] at h
    cases h
    have hmask : ∀ k, (s.mask ||| fieldBit f).getLsbD k = (s.mask.getLsbD k || decide (k = f.index)) := by
      simp [getLsbD_fieldBit]
    refine ⟨fun g j hgf hj => ?_, fun k hk => ?_, fun _ => ?_, rfl, rfl, fun _ => rfl, rfl, rfl, rfl⟩
    · exact (Snapshot.elem_storeElems_all hvs s.regs hj).trans (if_neg hgf.symm)
    · exact (hmask k).trans (by simp [hk])
    · exact (hmask f.index).trans (by simp)
  · rw [exec_of_count_ne (bodyOf_setter f vs) hvs] at h
    cases h
    exact ⟨fun _ _ _ _ => rfl, fun _ _ => rfl, id, rfl, rfl, fun _ => rfl, rfl, rfl, rfl⟩

/-! ## Setters one after another (R106) -/

theorem execAll_pair {i j : Instr} {s t : State} (h : exec i s = .next t) : execAll [i, j] s = exec j t := by
  obtain ⟨u, hu⟩ := exec_total j t
  simp only [execAll, h, hu]

/-- Two setters with the right counts store one after the other and answer 00 each. -/
theorem execAll_setters {f g : Field} {vs ws : List Nat} (hvs : vs.length = f.count) (hws : ws.length = g.count)
    (s : State) : execAll [setter f vs, setter g ws] s =
      .next (answer (answer ((s.withField f vs).withField g ws) [0x00#8]) [0x00#8]) := by
  rw [execAll_pair (exec_of_count_eq (bodyOf_setter f vs) hvs s), exec_of_count_eq (bodyOf_setter g ws) hws]
  rfl

/-- Settles O34: neither field's elements nor its mask bit are the other's, and both responses are 00. -/
theorem settersOfDifferentFieldsCommute : Obligations.SettersOfDifferentFieldsCommute := by
  intro f g vs ws s hfg hvs hws
  refine ⟨_, execAll_setters hvs hws s, ?_⟩
  rw [execAll_setters hws hvs, State.withField_comm hfg hvs hws]

/-- Settles O35: the second setter stores every element that the first one has stored. -/
theorem lastSetterOfAFieldWins : Obligations.LastSetterOfAFieldWins := by
  intro f vs ws s hvs hws
  rw [execAll_setters hvs hws, State.withField_withField hvs hws, exec_of_count_eq (bodyOf_setter f ws) hws]
  rfl

/-! ## The request of a setter (30_encoding.md R69) -/

theorem decodeFrame_setterOp_nil (f : Field) : decodeFrame [setterOp f] = none := decodeFrame_setterOp [] f

/-- A request whose length is not the one that its count tells is no command. -/
theorem decodeFrame_setterOp_of_length_ne (f : Field) {n : Byte} {bs : List Byte}
    (h : bs.length ≠ f.elemWidth * n.toNat) : decodeFrame (setterOp f :: n :: bs) = none := by
  rw [decodeFrame_setterOp, decodeElems, if_neg (Nat.mul_comm _ _ ▸ h)]
  rfl

theorem encodeElems_map_toNat {w ew : Nat} {bytes : BitVec w → List Byte} (hbytes : ∀ v, leBytes v.toNat ew = bytes v)
    (op : Byte) (vs : List (BitVec w)) :
    encodeElems op ew (vs.map BitVec.toNat) = op :: BitVec.ofNat 8 vs.length :: vs.flatMap bytes := by
  simp [encodeElems, List.flatMap_map, hbytes]

/-! ## What the six setters share (R106) -/

/-- The command made by `mk` from elements of `w` bits is the setter of the field `f`: it stores them there, its frame is
FSET, and it is well-formed when its count fits. -/
structure SetsField (f : Field) {w : Nat} (mk : List (BitVec w) → Instr) : Prop where
  body : ∀ vs, bodyOf (mk vs) = setField f (vs.map BitVec.toNat)
  frame : ∀ vs, encode (mk vs) = encodeElems (setterOp f) f.elemWidth (vs.map BitVec.toNat)
  fits : ∀ vs, (mk vs).wf = decide (vs.length ≤ maxCount)

theorem setsField_setMotor : SetsField .motor .setMotor := ⟨fun _ => rfl, fun _ => rfl, fun _ => rfl⟩
theorem setsField_setSwitch : SetsField .switch .setSwitch := ⟨fun _ => rfl, fun _ => rfl, fun _ => rfl⟩
theorem setsField_setPot : SetsField .pot .setPot := ⟨fun _ => rfl, fun _ => rfl, fun _ => rfl⟩
theorem setsField_setDiode : SetsField .diode .setDiode := ⟨fun _ => rfl, fun _ => rfl, fun _ => rfl⟩
theorem setsField_setTemp : SetsField .temp .setTemp := ⟨fun _ => rfl, fun _ => rfl, fun _ => rfl⟩
theorem setsField_setImu : SetsField .imu .setImu := ⟨fun _ => rfl, fun _ => rfl, fun _ => rfl⟩

namespace SetsField
variable {f : Field} {w : Nat} {mk : List (BitVec w) → Instr} {vs : List (BitVec w)}

/-- A setter with the right count, its field registers `q` written out. -/
theorem exec_of_stored (hmk : SetsField f mk) (hvs : vs.length = f.count) {s : State} {q : Snapshot}
    (hq : Snapshot.storeElems f 0 (vs.map BitVec.toNat) s.regs = q) :
    exec (mk vs) s = .next (answer { s with regs := q, mask := s.mask ||| fieldBit f } [0x00#8]) := by
  rw [exec_of_count_eq (hmk.body vs) (by rwa [List.length_map]), State.withField_eq hq]

theorem exec_of_length_ne (hmk : SetsField f mk) (hvs : vs.length ≠ f.count) (s : State) :
    exec (mk vs) s = .next (answer s [0x04#8, BitVec.ofNat 8 f.count, BitVec.ofNat 8 vs.length]) := by
  rw [exec_of_count_ne (hmk.body vs) (by rwa [List.length_map]), List.length_map]

/-- The frame of a setter is read back, its elements' bytes written out. -/
theorem decodeFrame_of_bytes (hmk : SetsField f mk) {bytes : BitVec w → List Byte}
    (hbytes : ∀ v, leBytes v.toNat f.elemWidth = bytes v) (hvs : vs.length ≤ maxCount) :
    decodeFrame (setterOp f :: BitVec.ofNat 8 vs.length :: vs.flatMap bytes) = some (mk vs) := by
  rw [← encodeElems_map_toNat hbytes, ← hmk.frame]
  exact encodedCommandsDecodeBack (mk vs) ((hmk.fits vs).trans (decide_eq_true hvs))

end SetsField

/-! ## Each setter (R100 to R105) -/

section Registers
variable (r : Snapshot)

theorem Snapshot.storeElems_motor (a b c d : Half) :
    Snapshot.storeElems .motor 0 ([a, b, c, d].map BitVec.toNat) r = { r with enc := #v[a, b, c, d] } :=
  Snapshot.storeElems_eq_of_elems rfl fun g hg _ => by
    cases g with | motor => exact absurd rfl hg | _ => rfl

theorem Snapshot.storeElems_switch (a b c d : Byte) :
    Snapshot.storeElems .switch 0 ([a, b, c, d].map BitVec.toNat) r = { r with sw := #v[a, b, c, d] } :=
  Snapshot.storeElems_eq_of_elems rfl fun g hg _ => by
    cases g with | switch => exact absurd rfl hg | _ => rfl

theorem Snapshot.storeElems_pot (a b : Half) :
    Snapshot.storeElems .pot 0 ([a, b].map BitVec.toNat) r = { r with pot := #v[a, b] } :=
  Snapshot.storeElems_eq_of_elems rfl fun g hg _ => by
    cases g with | pot => exact absurd rfl hg | _ => rfl

theorem Snapshot.storeElems_diode (a : Half) :
    Snapshot.storeElems .diode 0 ([a].map BitVec.toNat) r = { r with diode := a } :=
  Snapshot.storeElems_eq_of_elems rfl fun g hg _ => by
    cases g with | diode => exact absurd rfl hg | _ => rfl

theorem Snapshot.storeElems_temp (a : Pattern) :
    Snapshot.storeElems .temp 0 ([a].map BitVec.toNat) r = { r with temp := a } :=
  Snapshot.storeElems_eq_of_elems rfl fun g hg _ => by
    cases g with | temp => exact absurd rfl hg | _ => rfl

theorem Snapshot.storeElems_imu (a b c d e f : Pattern) :
    Snapshot.storeElems .imu 0 ([a, b, c, d, e, f].map BitVec.toNat) r = { r with imu := #v[a, b, c, d, e, f] } :=
  Snapshot.storeElems_eq_of_elems rfl fun g hg _ => by
    cases g with | imu => exact absurd rfl hg | _ => rfl

end Registers

/-- Settles O27: SET_MOTOR is the setter of the motor field, whose elements are two bytes wide. -/
theorem setMotorStoresFourEncoders : Obligations.SetMotorStoresFourEncoders :=
  ⟨fun a b c d s => setsField_setMotor.exec_of_stored rfl (s.regs.storeElems_motor a b c d),
    fun _ s hvs => setsField_setMotor.exec_of_length_ne hvs s,
    fun _ hvs => setsField_setMotor.decodeFrame_of_bytes leBytes_toNat_two hvs,
    fun _ _ hbs => decodeFrame_setterOp_of_length_ne .motor hbs, decodeFrame_setterOp_nil .motor⟩

/-- Settles O28: SET_SWITCH is the setter of the switch field, whose elements are one byte wide. -/
theorem setSwitchStoresFourBytes : Obligations.SetSwitchStoresFourBytes := by
  refine ⟨fun a b c d s => setsField_setSwitch.exec_of_stored rfl (s.regs.storeElems_switch a b c d),
    fun _ s hvs => setsField_setSwitch.exec_of_length_ne hvs s, fun vs hvs => ?_,
    fun n _ hbs => decodeFrame_setterOp_of_length_ne .switch ((Nat.one_mul n.toNat).symm ▸ hbs),
    decodeFrame_setterOp_nil .switch⟩
  have h := setsField_setSwitch.decodeFrame_of_bytes leBytes_toNat_one hvs
  rwa [List.flatMap_singleton'] at h

/-- Settles O29: SET_POT is the setter of the pot field, whose elements are two bytes wide. -/
theorem setPotStoresTwoPotentiometers : Obligations.SetPotStoresTwoPotentiometers :=
  ⟨fun a b s => setsField_setPot.exec_of_stored rfl (s.regs.storeElems_pot a b),
    fun _ s hvs => setsField_setPot.exec_of_length_ne hvs s,
    fun _ hvs => setsField_setPot.decodeFrame_of_bytes leBytes_toNat_two hvs,
    fun _ _ hbs => decodeFrame_setterOp_of_length_ne .pot hbs, decodeFrame_setterOp_nil .pot⟩

/-- Settles O30: SET_DIODE is the setter of the diode field, whose one element is two bytes wide. -/
theorem setDiodeStoresTheDiode : Obligations.SetDiodeStoresTheDiode :=
  ⟨fun a s => setsField_setDiode.exec_of_stored rfl (s.regs.storeElems_diode a),
    fun _ s hvs => setsField_setDiode.exec_of_length_ne hvs s,
    fun _ hvs => setsField_setDiode.decodeFrame_of_bytes leBytes_toNat_two hvs,
    fun _ _ hbs => decodeFrame_setterOp_of_length_ne .diode hbs, decodeFrame_setterOp_nil .diode⟩

/-- Settles O31: SET_TEMP is the setter of the temp field, whose one element is four bytes wide. -/
theorem setTempStoresThePattern : Obligations.SetTempStoresThePattern :=
  ⟨fun a s => setsField_setTemp.exec_of_stored rfl (s.regs.storeElems_temp a),
    fun _ s hvs => setsField_setTemp.exec_of_length_ne hvs s,
    fun _ hvs => setsField_setTemp.decodeFrame_of_bytes leBytes_toNat_four hvs,
    fun _ _ hbs => decodeFrame_setterOp_of_length_ne .temp hbs, decodeFrame_setterOp_nil .temp⟩

/-- Settles O32: SET_IMU is the setter of the imu field, whose elements are four bytes wide. -/
theorem setImuStoresSixPatterns : Obligations.SetImuStoresSixPatterns :=
  ⟨fun a b c d e f s => setsField_setImu.exec_of_stored rfl (s.regs.storeElems_imu a b c d e f),
    fun _ s hvs => setsField_setImu.exec_of_length_ne hvs s,
    fun _ hvs => setsField_setImu.decodeFrame_of_bytes leBytes_toNat_four hvs,
    fun _ _ hbs => decodeFrame_setterOp_of_length_ne .imu hbs, decodeFrame_setterOp_nil .imu⟩

end Sys2Proof.Machine
end

/-! # The PACK family (41_pack.md): how PACK ends, and a PACK after a PACK -/

section
namespace Sys2Proof.Machine

/-! ## The payload, byte for byte (30_encoding.md R63) -/

/-- The statements' wire table lists the fields in their order, each with its own bytes. -/
theorem wire_eq_map_inOrder (r : Snapshot) : Claims.wire r = Field.inOrder.map fun f => (f.index, r.fieldBytes f) := by
  simp only [Claims.wire, Field.inOrder, List.map_cons, List.map_nil, Field.index, ← leBytes_toNat_two,
    ← leBytes_toNat_four]
  simp [Snapshot.fieldBytes, Field.count, Field.elemWidth, List.range_succ, Snapshot.elem]

/-- Laying out the selected items side by side leaves out the others. -/
theorem flatMap_filter_eq_flatMap_ite {α β : Type} (p : α → Bool) (g : α → List β) (l : List α) :
    (l.filter p).flatMap g = l.flatMap fun a => if p a then g a else [] := by
  induction l with
  | nil => rfl
  | cons a l ih => by_cases ha : p a <;> simp [ha, ih]

theorem payload_eq_payloadOf (m : Byte) (r : Snapshot) : payload m r = Claims.payloadOf m r := by
  rw [payload, Claims.payloadOf, wire_eq_map_inOrder, List.flatMap_map, presentFields, flatMap_filter_eq_flatMap_ite]

theorem payloadOf_length (m : Byte) (r : Snapshot) : (Claims.payloadOf m r).length = Claims.need m := by
  rw [← payload_eq_payloadOf, payload_length, req_eq_need]

theorem one_le_need (m : Byte) : 1 ≤ Claims.need m := req_eq_need m ▸ req_pos m

theorem need_le (m : Byte) : Claims.need m ≤ 47 := req_eq_need m ▸ req_le m

/-! ## How PACK ends (R110, R111) -/

theorem State.packed_eq_answer (s : State) :
    s.packed = Claims.answer { s with
        pbuf := Memory.writeBytes s.pbuf 0 (payload (fieldBits s.mask) s.regs)
        mask := s.mask &&& ~~~fieldBits s.mask }
      [0x00#8, BitVec.ofNat 8 (Claims.need (fieldBits s.mask))] := by
  rw [← req_eq_need]; rfl

/-- A byte read after PACK: inside the payload the payload's, elsewhere the byte before (R114). -/
theorem State.packed_pbufByte_eq (s : State) (a : Nat) :
    s.packed.pbufByte a =
      if a < Claims.need (fieldBits s.mask) then (Claims.payloadOf (fieldBits s.mask) s.regs)[a]?.getD 0
      else s.pbufByte a := by
  have hstored := s.setPbuf_writeBytes_pbufByte 0 (payload (fieldBits s.mask) s.regs) a
  simp only [payload_eq_payloadOf, payloadOf_length, Nat.zero_le, true_and, Nat.zero_add, Nat.sub_zero] at hstored
  rw [← hstored, ← payload_eq_payloadOf]
  rfl

theorem exec_pack_of_overflow {s : State} (h : s.params.cap < Claims.need (fieldBits s.mask)) :
    exec .pack s = .next (Claims.answer s [0x01#8, BitVec.ofNat 8 (Claims.need (fieldBits s.mask))]) := by
  rw [exec_eq_runCommand]
  rcases packBody_cases s with ⟨hfit, -⟩ | ⟨-, herror⟩
  · rw [req_eq_need] at hfit
    omega
  · rw [← req_eq_need]
    exact runCommand_of_error herror

/-- Settles O36: PACK stores the payload from offset 0 when it fits, and only answers when it does not. -/
theorem packWritesThePayload : Obligations.PackWritesThePayload := by
  refine ⟨fun s hfit => ⟨Memory.writeBytes s.pbuf 0 (payload (fieldBits s.mask) s.regs), ?_, ?_, ?_⟩,
    fun s hover => exec_pack_of_overflow hover, rfl, fun _ _ => rfl⟩
  · rw [exec_pack_of_fits hfit, State.packed_eq_answer]
    rfl
  · exact payloadOf_length (fieldBits s.mask) s.regs
  · exact s.packed_pbufByte_eq

/-! ## The mask after PACK (R113, R115) -/

/-- PACK leaves the reserved bits of the mask alone. -/
theorem and_not_fieldBits (m : Byte) : m &&& ~~~fieldBits m = m &&& 0xC0#8 := by
  calc m &&& ~~~(m &&& 0x3F#8) = m &&& ~~~m ||| m &&& ~~~0x3F#8 := by
        rw [BitVec.not_and, BitVec.and_or_distrib_left]
    _ = m &&& 0xC0#8 := by rw [BitVec.and_not_self]; exact BitVec.zero_or

/-- Settles O40: the second PACK finds no field pending, so its payload is the zero mask byte alone. -/
theorem secondPackIsEmpty : Obligations.SecondPackIsEmpty := by
  intro s hreserved hfit
  have hmask : s.packed.mask = 0#8 := by rw [State.packed_mask, and_not_fieldBits, hreserved]
  have hempty : fieldBits s.packed.mask = 0#8 := fieldBits_and_not_fieldBits s.mask
  have hneed : Claims.need 0#8 = 1 := by decide
  have hagain : Claims.need (fieldBits s.packed.mask) ≤ s.params.cap := by
    rw [hempty, hneed]
    exact (one_le_need _).trans hfit
  have hbyte := s.packed.packed_pbufByte_eq
  simp only [hempty, hneed] at hbyte
  refine ⟨s.packed, s.packed.packed, exec_pack_of_fits hfit, hmask, exec_pack_of_fits hagain, ?_, ?_, ?_, ?_, ?_⟩
  · rw [State.packed_responses, hempty, req_eq_need, hneed]
    rfl
  · exact hbyte 0
  · rw [State.packed_mask, hmask, BitVec.zero_and]
  · rfl
  · exact fun a ha => (hbyte a).trans (if_neg (by omega))

/-! ## The capacity of this hardware (R111) -/

/-- Settles O41: no payload is longer than 47 bytes, and this hardware has 64. -/
theorem packAlwaysFitsThisHardware : Obligations.PackAlwaysFitsThisHardware := by
  intro s hcap
  have hfit : Claims.need (fieldBits s.mask) ≤ s.params.cap := by
    rw [hcap]
    exact (need_le _).trans (by decide)
  exact ⟨s.packed, _, exec_pack_of_fits hfit, s.packed_responses⟩

end Sys2Proof.Machine
end

/-! # The UNPACK family (42_unpack.md): what UNPACK reads, and PACK's payload read back -/

section
namespace Sys2Proof.Machine

/-! ## Fields stored one after another (R120) -/

/-- An element read after its field is stored from the front of a byte string is the value of its own bytes there. -/
theorem Snapshot.elem_storeField_take (r : Snapshot) (f : Field) (bs : List Byte) {g : Field} {k : Nat} (hk : k < g.count) :
    (r.storeField f (bs.take f.width)).elem g k =
      if f = g then leValue ((bs.drop (k * f.elemWidth)).take f.elemWidth) else r.elem g k := by
  rw [Snapshot.elem_storeField r f _ hk]
  by_cases hfg : f = g
  · subst hfg
    have hinside : f.elemWidth ≤ f.width - k * f.elemWidth := by
      rw [Field.width, ← Nat.sub_mul]
      exact Nat.le_mul_of_pos_left _ (Nat.sub_pos_of_lt hk)
    rw [if_pos rfl, if_pos rfl, List.drop_take, List.take_take, Nat.min_eq_left hinside]
  · rw [if_neg hfg, if_neg hfg]

/-- The bytes that the fields of a list before `f` take, the sum in `fieldOffset`. -/
def widthBefore (fs : List Field) (f : Field) : Nat :=
  ((fs.filter fun g => decide (g.index < f.index)).map Field.width).sum

theorem fieldOffset_eq (m : Byte) (f : Field) : fieldOffset m f = 1 + widthBefore (presentFields m) f := rfl

theorem widthBefore_cons_of_lt {f g : Field} (h : g.index < f.index) (fs : List Field) :
    widthBefore (g :: fs) f = g.width + widthBefore fs f := by
  simp [widthBefore, h]

/-- No field of a rising list stands before its first. -/
theorem widthBefore_cons_self {f : Field} {fs : List Field} (h : ∀ g ∈ fs, f.index < g.index) :
    widthBefore (f :: fs) f = 0 := by
  have hnone : ((f :: fs).filter fun g => decide (g.index < f.index)) = [] := by
    rw [List.filter_eq_nil_iff]
    intro g hg
    rcases List.mem_cons.mp hg with rfl | hg
    · simp
    · simpa using (h g hg).le
  rw [widthBefore, hnone]
  rfl

/-- An element read after fields of rising number are stored: the value of its own bytes where its field is one of them. -/
theorem elem_unpackFields {fs : List Field} (hsorted : fs.Pairwise fun f g => f.index < g.index) (bs : List Byte)
    (r : Snapshot) {f : Field} {j : Nat} (hj : j < f.count) :
    (unpackFields fs bs r).elem f j =
      if f ∈ fs then leValue ((bs.drop (widthBefore fs f + j * f.elemWidth)).take f.elemWidth) else r.elem f j := by
  induction fs generalizing bs r with
  | nil => rfl
  | cons g fs ih =>
    obtain ⟨hg, hfs⟩ := List.pairwise_cons.mp hsorted
    rw [unpackFields_cons, ih hfs, Snapshot.elem_storeField_take r g bs hj]
    by_cases hmem : f ∈ fs
    · rw [if_pos hmem, if_pos (List.mem_cons_of_mem g hmem), List.drop_drop, widthBefore_cons_of_lt (hg f hmem),
        Nat.add_assoc]
    · rw [if_neg hmem]
      by_cases hgf : g = f
      · subst hgf
        rw [if_pos rfl, if_pos List.mem_cons_self, widthBefore_cons_self hg, Nat.zero_add]
      · rw [if_neg hgf, if_neg (by simp [hmem, Ne.symm hgf])]

/-- With the fields of a mask, an element's own bytes stand in the input, mask byte included, at the field's offset. -/
theorem elem_unpackFields_presentFields (m d0 : Byte) (bs : List Byte) (r : Snapshot) {f : Field} {j : Nat}
    (hj : j < f.count) :
    (unpackFields (presentFields m) bs r).elem f j =
      if m.getLsbD f.index then leValue (((d0 :: bs).drop (fieldOffset m f + j * f.elemWidth)).take f.elemWidth)
      else r.elem f j := by
  have hoffset : fieldOffset m f + j * f.elemWidth = widthBefore (presentFields m) f + j * f.elemWidth + 1 := by
    rw [fieldOffset_eq]
    omega
  rw [elem_unpackFields (presentFields_pairwise m) bs r hj, hoffset, List.drop_succ_cons]
  simp only [mem_presentFields]

/-- Only as many bytes are read as the fields are wide. -/
theorem unpackFields_append {fs : List Field} {bs : List Byte} (hfit : (fs.map Field.width).sum ≤ bs.length)
    (extra : List Byte) (r : Snapshot) : unpackFields fs (bs ++ extra) r = unpackFields fs bs r := by
  induction fs generalizing bs r with
  | nil => rfl
  | cons f fs ih =>
    rw [List.map_cons, List.sum_cons] at hfit
    have hwidth : f.width ≤ bs.length := by omega
    have hrest : (fs.map Field.width).sum ≤ (bs.drop f.width).length := by rw [List.length_drop]; omega
    rw [unpackFields_cons, unpackFields_cons, List.take_append_of_le_length hwidth,
      List.drop_append_of_le_length hwidth, ih hrest]

/-! ## How UNPACK ends (R120, R121) -/

@[simp] theorem fieldBits_fieldBits (m : Byte) : fieldBits (fieldBits m) = fieldBits m := by
  rw [fieldBits, fieldBits, BitVec.and_assoc, BitVec.and_self]

theorem exec_unpack_nil (s : State) : exec (.unpack []) s = .next (Claims.answer s [0x02#8, 1#8, 0#8]) := rfl

section
variable {d0 : Byte} {bs : List Byte}

theorem exec_unpack_of_short (h : bs.length + 1 < Claims.need (fieldBits d0)) (s : State) :
    exec (.unpack (d0 :: bs)) s =
      .next (Claims.answer s
        [0x02#8, BitVec.ofNat 8 (Claims.need (fieldBits d0)), BitVec.ofNat 8 (bs.length + 1)]) := by
  rw [← req_eq_need] at h ⊢
  rw [exec_eq_runCommand]
  rcases unpackBody_cases (d0 :: bs) s with ⟨hnil, -⟩ | ⟨_, _, heq, -, herror⟩ | ⟨_, _, heq, hfit, -⟩
  · cases hnil
  · cases heq
    exact runCommand_of_error herror
  · cases heq
    exact absurd h hfit.not_gt

theorem exec_unpack_of_fits (h : Claims.need (fieldBits d0) ≤ bs.length + 1) (s : State) :
    exec (.unpack (d0 :: bs)) s =
      .next (Claims.answer
        { s with regs := unpackFields (presentFields (fieldBits d0)) bs s.regs, mask := fieldBits d0 }
        [0x00#8, fieldBits d0]) := by
  rw [← req_eq_need] at h
  rw [exec_eq_runCommand]
  rcases unpackBody_cases (d0 :: bs) s with ⟨hnil, -⟩ | ⟨_, _, heq, hshort, -⟩ | ⟨_, _, heq, -, hok⟩
  · cases hnil
  · cases heq
    exact absurd hshort h.not_gt
  · cases heq
    exact runCommand_of_ok hok

end

theorem decodeFrame_unpack_of_length_le {d : List Byte} (h : d.length ≤ maxCount) :
    decodeFrame (0x11#8 :: BitVec.ofNat 8 d.length :: d) = some (.unpack d) := by
  rw [decodeFrame_unpack, decodeBuffer_eq_some_iff.mpr ⟨h, rfl⟩]
  rfl

theorem decodeFrame_unpack_of_length_ne {l : Byte} {d : List Byte} (h : d.length ≠ l.toNat) :
    decodeFrame (0x11#8 :: l :: d) = none := by
  rw [decodeFrame_unpack, decodeBuffer, if_neg h]
  rfl

/-- Settles O42: a short input only gets its answer, and a long enough one has each present field's elements at the field's
offset. -/
theorem unpackDecodesPresentFields : Obligations.UnpackDecodesPresentFields := by
  refine ⟨exec_unpack_nil, fun d0 bs s hshort => exec_unpack_of_short hshort s,
    fun d0 bs s hfit => ⟨_, exec_unpack_of_fits hfit s, fun f j hj => ?_⟩,
    fun d hd => decodeFrame_unpack_of_length_le hd, fun l d hd => decodeFrame_unpack_of_length_ne hd, rfl⟩
  rw [← getLsbD_fieldBits d0 f]
  exact elem_unpackFields_presentFields (fieldBits d0) d0 bs s.regs hj

/-! ## What UNPACK does not look at (R122, R124) -/

/-- Settles O43: the bytes that the mask implies are all there without the bytes after them. -/
theorem unpackIgnoresTrailingBytes : Obligations.UnpackIgnoresTrailingBytes := by
  intro d0 bs extra s hfit
  have hlonger : Claims.need (fieldBits d0) ≤ (bs ++ extra).length + 1 := by
    rw [List.length_append]
    exact Nat.le_trans hfit (by omega)
  have hwidths : ((presentFields (fieldBits d0)).map Field.width).sum ≤ bs.length := by
    have hreq : req (fieldBits d0) ≤ bs.length + 1 := (req_eq_need _).trans_le hfit
    rw [req] at hreq
    omega
  rw [exec_unpack_of_fits hlonger, exec_unpack_of_fits hfit, unpackFields_append hwidths]

/-- Settles O44: the mask byte counts by its field bits alone, in the length check as in the decoding. -/
theorem unpackIgnoresReservedBits : Obligations.UnpackIgnoresReservedBits := by
  intro d0 bs s
  change exec (.unpack (d0 :: bs)) s = exec (.unpack (fieldBits d0 :: bs)) s
  rcases Nat.lt_or_ge (bs.length + 1) (Claims.need (fieldBits d0)) with hshort | hfit
  · have hshort' : bs.length + 1 < Claims.need (fieldBits (fieldBits d0)) := by rwa [fieldBits_fieldBits]
    rw [exec_unpack_of_short hshort, exec_unpack_of_short hshort', fieldBits_fieldBits]
  · have hfit' : Claims.need (fieldBits (fieldBits d0)) ≤ bs.length + 1 := by rwa [fieldBits_fieldBits]
    rw [exec_unpack_of_fits hfit, exec_unpack_of_fits hfit', fieldBits_fieldBits]

/-! ## The payload that PACK writes, unpacked (R126) -/

/-- A field stored from the bytes of another snapshot's field has that snapshot's elements. -/
theorem Snapshot.elem_storeField_fieldBytes (q r : Snapshot) (f : Field) {g : Field} {k : Nat} (hk : k < g.count) :
    (q.storeField f (r.fieldBytes f)).elem g k = if f = g then r.elem g k else q.elem g k := by
  have helems := leElems_fieldBytes r f []
  rw [List.append_nil] at helems
  rw [Snapshot.storeField, helems, Snapshot.elem_storeElems_all (by simp) q hk]
  by_cases hfg : f = g
  · subst hfg
    simp [hk, Nat.mod_eq_of_lt (r.elem_lt f k)]
  · rw [if_neg hfg, if_neg hfg]

theorem elem_unpackFields_fieldBytes (fs : List Field) (r q : Snapshot) {f : Field} {j : Nat} (hj : j < f.count) :
    (unpackFields fs (fs.flatMap r.fieldBytes) q).elem f j = if f ∈ fs then r.elem f j else q.elem f j := by
  induction fs generalizing q with
  | nil => rfl
  | cons g fs ih =>
    have hlen := r.fieldBytes_length g
    rw [unpackFields_cons, List.flatMap_cons, List.drop_left' hlen, List.take_left' hlen, ih,
      Snapshot.elem_storeField_fieldBytes q r g hj]
    by_cases hmem : f ∈ fs
    · rw [if_pos hmem, if_pos (List.mem_cons_of_mem g hmem)]
    · simp [hmem, eq_comm]

/-- The bytes that PACK reports, read from the buffer, are the payload. -/
theorem State.packed_map_pbufByte (s : State) :
    (List.range (Claims.need (fieldBits s.mask))).map s.packed.pbufByte = payload (fieldBits s.mask) s.regs := by
  rw [← req_eq_need]
  refine List.ext_getElem (by simp) fun a ha hpayload => ?_
  rw [List.getElem_map, List.getElem_range]
  exact State.packed_pbufByte (List.getElem?_eq_getElem hpayload)

/-- A payload is exactly as long as UNPACK asks for, so that UNPACK takes it. -/
theorem exec_unpack_payload (m : Byte) (r : Snapshot) (s : State) :
    exec (.unpack (payload (fieldBits m) r)) s =
      .next (Claims.answer
        { s with
          regs := unpackFields (presentFields (fieldBits m)) ((presentFields (fieldBits m)).flatMap r.fieldBytes) s.regs
          mask := fieldBits m }
        [0x00#8, fieldBits m]) := by
  have hlength := payload_length (fieldBits m) r
  rw [req_eq_need, payload, List.length_cons] at hlength
  rw [payload, exec_unpack_of_fits (by rw [fieldBits_fieldBits, hlength]), fieldBits_fieldBits]

/-- Settles O45: the buffer holds the payload, and UNPACK stores each of its fields as it stood in the sender. -/
theorem unpackOfPackRestoresTheFields : Obligations.UnpackOfPackRestoresTheFields := by
  intro a b hfit
  have hunpack := exec_unpack_payload a.mask a.regs b
  rw [← a.packed_map_pbufByte] at hunpack
  refine ⟨a.packed, exec_pack_of_fits hfit, ?_, _, hunpack, fun f j hj => ?_⟩
  · rw [State.packed_responses, req_eq_need]
    rfl
  · rw [elem_unpackFields_fieldBytes _ a.regs b.regs hj]
    simp only [mem_presentFields, getLsbD_fieldBits]

end Sys2Proof.Machine
end

/-! # The APPEND_BYTE family (43_stream.md): how APPEND_BYTE ends, and bytes appended one after another -/

section
namespace Sys2Proof.Machine

/-! ## How APPEND_BYTE ends (R130 to R132) -/

/-- The state after a byte that is stored: it stands at the cursor, and the new cursor is the answer. -/
def State.appended (s : State) (b : Byte) : State :=
  ((s.setPbuf (Memory.writeBytes s.pbuf s.cursor.toNat [b])).setCursor (s.cursor + 1)).respond (okFrame [s.cursor + 1])

section
variable {b : Byte} {s : State}

theorem exec_appendByte_of_room (hb : b ≠ s.params.sentinel) (hroom : s.cursor.toNat < s.params.cap) :
    exec (.appendByte b) s = .next (s.appended b) := by
  rw [exec_eq_runCommand]
  rcases appendBody_cases b s with ⟨heq, -⟩ | ⟨-, -, hok⟩ | ⟨-, hfull, -⟩
  · exact absurd heq hb
  · exact runCommand_of_ok hok
  · exact absurd hroom hfull.not_gt

theorem exec_appendByte_of_full (hb : b ≠ s.params.sentinel) (hfull : s.params.cap ≤ s.cursor.toNat) :
    exec (.appendByte b) s = .next (Claims.answer s [0x01#8, BitVec.ofNat 8 (s.cursor.toNat + 1)]) := by
  rw [exec_eq_runCommand]
  rcases appendBody_cases b s with ⟨heq, -⟩ | ⟨-, hroom, -⟩ | ⟨-, -, herror⟩
  · exact absurd heq hb
  · exact absurd hroom hfull.not_gt
  · exact runCommand_of_error herror

end

/-- One byte stored changes the byte read at its own offset alone. -/
theorem State.setPbuf_writeByte_pbufByte (s : State) (off : Nat) (b : Byte) (a : Nat) :
    (s.setPbuf (Memory.writeBytes s.pbuf off [b])).pbufByte a = if a = off then b else s.pbufByte a := by
  rw [State.setPbuf_writeBytes_pbufByte, List.length_singleton]
  by_cases ha : a = off
  · subst ha
    simp
  · rw [if_neg (by omega), if_neg ha]

/-- A request of APPEND_BYTE with no byte, or with more than one, is no command. -/
theorem decodeFrame_appendByte_of_length_ne {bs : List Byte} (h : bs.length ≠ 1) : decodeFrame (0x12#8 :: bs) = none := by
  rcases hbyte : decodeByte bs with _ | b
  · rw [decodeFrame_appendByte, hbyte]
    rfl
  · exact absurd (congrArg List.length (decodeByte_eq_some_iff.mp hbyte)).symm h

/-- Settles O47: the sentinel, a byte with room and a byte without are the three ways in which APPEND_BYTE ends. -/
theorem appendByteStoresOrResets : Obligations.AppendByteStoresOrResets :=
  ⟨exec_cursorReset,
    fun b s hb hroom => ⟨_, exec_appendByte_of_room hb hroom, s.setPbuf_writeByte_pbufByte s.cursor.toNat b⟩,
    fun _ _ hb hfull => exec_appendByte_of_full hb hfull, fun _ => rfl, fun _ h => decodeFrame_appendByte_of_length_ne h⟩

/-! ## Bytes appended one after another (R133) -/

/-- The state after bytes that are all stored. -/
def State.appendedAll (s : State) (bs : List Byte) : State := bs.foldl State.appended s

section
variable (s : State) (b : Byte) (bs : List Byte)

@[simp] theorem State.appendedAll_cons : s.appendedAll (b :: bs) = (s.appended b).appendedAll bs := rfl

/-- Appending leaves the field registers, the mask and the number of resets alone. -/
theorem State.appendedAll_keeps :
    (s.appendedAll bs).regs = s.regs ∧ (s.appendedAll bs).mask = s.mask ∧ (s.appendedAll bs).epoch = s.epoch := by
  induction bs generalizing s with
  | nil => exact ⟨rfl, rfl, rfl⟩
  | cons b bs ih => exact ih (s.appended b)

end

section
variable {s : State} {b : Byte} {bs : List Byte}

/-- The cursor counts a byte, where its eight bits can. -/
theorem State.appended_cursor_toNat (h : s.cursor.toNat < 255) : (s.appended b).cursor.toNat = s.cursor.toNat + 1 :=
  BitVec.toNat_add_of_lt (Nat.add_lt_of_lt_sub h)

theorem State.appendedAll_cursor_toNat (h : s.cursor.toNat + bs.length ≤ 255) :
    (s.appendedAll bs).cursor.toNat = s.cursor.toNat + bs.length := by
  induction bs generalizing s with
  | nil => rfl
  | cons b bs ih =>
    rw [List.length_cons] at h ⊢
    have hcursor := s.appended_cursor_toNat (b := b) (by omega)
    rw [State.appendedAll_cons, ih (by omega), hcursor]
    omega

/-- Bytes appended one after another are stored as one string would be, from the cursor on. -/
theorem State.appendedAll_pbuf (h : s.cursor.toNat + bs.length ≤ 255) :
    (s.appendedAll bs).pbuf = Memory.writeBytes s.pbuf s.cursor.toNat bs := by
  induction bs generalizing s with
  | nil => rfl
  | cons b bs ih =>
    rw [List.length_cons] at h
    have hcursor := s.appended_cursor_toNat (b := b) (by omega)
    rw [State.appendedAll_cons, ih (by omega), hcursor]
    rfl

theorem State.appendedAll_pbufByte (h : s.cursor.toNat + bs.length ≤ 255) (a : Nat) :
    (s.appendedAll bs).pbufByte a =
      if s.cursor.toNat ≤ a ∧ a < s.cursor.toNat + bs.length then bs[a - s.cursor.toNat]?.getD 0 else s.pbufByte a := by
  obtain ⟨-, -, hepoch⟩ := s.appendedAll_keeps bs
  rw [← s.setPbuf_writeBytes_pbufByte s.cursor.toNat bs a]
  exact State.pbufByte_congr (t := s.setPbuf _) (State.appendedAll_pbuf h) hepoch a

/-- Bytes that fit, none of them the sentinel, are all stored. -/
theorem execAll_appendByte (hbs : ∀ b ∈ bs, b ≠ s.params.sentinel) (hfit : s.cursor.toNat + bs.length ≤ s.params.cap)
    (hcount : s.cursor.toNat + bs.length ≤ 255) :
    Claims.execAll (bs.map .appendByte) s = .next (s.appendedAll bs) := by
  induction bs generalizing s with
  | nil => rfl
  | cons b bs ih =>
    rw [List.length_cons] at hfit hcount
    obtain ⟨hb, hrest⟩ := List.forall_mem_cons.mp hbs
    have hcursor := s.appended_cursor_toNat (b := b) (by omega)
    have hparams : (s.appended b).params = s.params := rfl
    rw [List.map_cons, Claims.execAll, exec_appendByte_of_room hb (by omega)]
    exact ih hrest (by rw [hparams]; omega) (by omega)

end

/-- Settles O48: from cursor 0 the bytes are stored as one string from offset 0. -/
theorem appendedBytesAccumulate : Obligations.AppendedBytesAccumulate := by
  intro bs s hbs hcursor hfit hcap
  have hzero : s.cursor.toNat = 0 := by rw [hcursor]; rfl
  have hcount : s.cursor.toNat + bs.length ≤ 255 := by omega
  obtain ⟨hregs, hmask, -⟩ := s.appendedAll_keeps bs
  have hbyte := s.appendedAll_pbufByte hcount
  simp only [hzero, Nat.zero_le, true_and, Nat.zero_add, Nat.sub_zero] at hbyte
  refine ⟨s.appendedAll bs, execAll_appendByte hbs (by omega) hcount, ?_, hregs, hmask, fun k hk => ?_,
    fun k hk => ?_⟩
  · rw [State.appendedAll_cursor_toNat hcount, hzero, Nat.zero_add]
  · rw [hbyte, if_pos hk]
  · rw [hbyte, if_neg hk.not_gt]

end Sys2Proof.Machine
end

/-! # The READ_TEXT family (44_text_decode.md): tokens, their values, and what READ_TEXT makes of them -/

/-! ## The tokens: which they are (R141, R142) -/

section
namespace Sys2Proof

open Sys2Proof.Claims

/-! ### Digits (R141) -/

theorem isDigit_iff {b : Byte} : isDigit b = true ↔ 0x30 ≤ b.toNat ∧ b.toNat ≤ 0x39 := by simp [isDigit]

theorem all_isDigit_iff {t : List Byte} : t.all isDigit = true ↔ Digits t := by
  simp [Digits, isDigit_iff]

/-- Digits summed by their places are the digits taken in one after another. -/
theorem digitsValue_eq_placeValue (t : List Byte) : digitsValue t = placeValue t := by
  have taken : ∀ (t : List Byte) (v : Nat),
      t.foldl (fun v b => 10 * v + (b.toNat - 0x30)) v = v * 10 ^ t.length + placeValue t := by
    intro t
    induction t with
    | nil => intro v; simp [placeValue]
    | cons b t ih =>
      intro v
      rw [List.foldl_cons, ih, placeValue, List.length_cons, Nat.pow_succ']
      ring
  rw [digitsValue, taken, Nat.zero_mul, Nat.zero_add]

theorem parseUInt_eq_some_iff {t : Token} {max v : Nat} :
    parseUInt t max = some v ↔ t ≠ [] ∧ Digits t ∧ placeValue t = v ∧ v ≤ max := by
  rw [parseUInt, Option.ite_none_right_eq_some, ← all_isDigit_iff, digitsValue_eq_placeValue]
  simp only [Bool.and_eq_true, Bool.not_eq_true', List.isEmpty_eq_false_iff, decide_eq_true_eq, Option.some.injEq]
  constructor
  · rintro ⟨⟨⟨hne, hdigits⟩, hle⟩, rfl⟩
    exact ⟨hne, hdigits, rfl, hle⟩
  · rintro ⟨hne, hdigits, rfl, hle⟩
    exact ⟨⟨⟨hne, hdigits⟩, hle⟩, rfl⟩

theorem parseUInt_eq_none_of_not {t : Token} {max : Nat} (h : ¬ (t ≠ [] ∧ Digits t ∧ placeValue t ≤ max)) :
    parseUInt t max = none := by
  rw [Option.eq_none_iff_forall_ne_some]
  intro v hv
  obtain ⟨hne, hdigits, rfl, hle⟩ := parseUInt_eq_some_iff.mp hv
  exact h ⟨hne, hdigits, hle⟩

/-! ### The grammar of float tokens (R142), part by part -/

/-- The first byte of a byte string, if there is one, is such that `P`. -/
def Front (P : Byte → Prop) (t : List Byte) : Prop := ∀ b ∈ t.head?, P b

/-- A byte that is no sign. -/
def NotSign (b : Byte) : Prop := b ≠ 0x2D#8 ∧ b ≠ 0x2B#8

theorem notSign_of_isDigit {b : Byte} (h : isDigit b = true) : NotSign b := by
  constructor <;> rintro rfl <;> cases h

theorem front_notSign_of_digits {t : List Byte} (h : Digits t) : Front NotSign t := fun b hb =>
  notSign_of_isDigit (isDigit_iff.mpr (h b (List.mem_of_mem_head? hb)))

theorem takeSign_signText_append (sg : Option Bool) {t : List Byte} (h : Front NotSign t) :
    takeSign (signText sg ++ t) = (decide (sg = some true), t) := by
  rcases sg with _ | _ | _
  · rcases t with _ | ⟨b, r⟩
    · rfl
    · obtain ⟨hminus, hplus⟩ := h b rfl
      simp [signText, takeSign, hminus, hplus]
  · rfl
  · rfl

/-- The text of a sign and what follows it are the whole string. -/
theorem exists_signText_of_takeSign {t r : List Byte} {neg : Bool} (h : takeSign t = (neg, r)) :
    ∃ sg, signText sg ++ r = t := by
  rcases t with _ | ⟨b, u⟩
  · cases h
    exact ⟨none, rfl⟩
  · rw [takeSign] at h
    split at h
    · next hb => cases h; subst hb; exact ⟨some true, rfl⟩
    · split at h
      · next hb => cases h; subst hb; exact ⟨some false, rfl⟩
      · cases h; exact ⟨none, rfl⟩

/-- The text of the point and the digits after it. -/
def pointText (point : Bool) (frac : List Byte) : List Byte := if point then 0x2E#8 :: frac else []

/-- The digits at the front of a string end where something else begins. -/
theorem span_digits_append {w rest : List Byte} (hw : Digits w) (hrest : Front (fun b => isDigit b = false) rest) :
    (w ++ rest).takeWhile isDigit = w ∧ (w ++ rest).dropWhile isDigit = rest := by
  have hall : ∀ b ∈ w, isDigit b = true := List.all_eq_true.mp (all_isDigit_iff.mpr hw)
  rw [List.takeWhile_append_of_pos hall, List.dropWhile_append_of_pos hall]
  rcases rest with _ | ⟨b, r⟩
  · simp
  · have hb : isDigit b = false := hrest b rfl
    simp [hb]

theorem takeMant_append {w fr rest : List Byte} {point : Bool} (hw : Digits w) (hfr : Digits fr)
    (hne : w ≠ [] ∨ fr ≠ []) (hpoint : point = false → fr = [])
    (hrest : Front (fun b => isDigit b = false ∧ b ≠ 0x2E#8) rest) :
    takeMant (w ++ (pointText point fr ++ rest)) = some (w, fr, rest) := by
  have hafter : Front (fun b => isDigit b = false) rest := fun b hb => (hrest b hb).1
  cases point with
  | false =>
    obtain rfl := hpoint rfl
    have hempty : w.isEmpty = false := by simpa using hne
    obtain ⟨htake, hdrop⟩ := span_digits_append hw hafter
    rw [pointText, if_neg Bool.false_ne_true, List.nil_append]
    rcases rest with _ | ⟨b, r⟩
    · simp only [takeMant, htake, hdrop, hempty, Bool.false_eq_true, if_false]
    · have hb : b ≠ 0x2E#8 := (hrest b rfl).2
      simp only [takeMant, htake, hdrop, hempty, hb, Bool.false_eq_true, if_false]
  | true =>
    have hempty : (w.isEmpty && fr.isEmpty) = false := by
      rw [Bool.and_eq_false_iff]
      simpa using hne
    obtain ⟨htake, hdrop⟩ := span_digits_append hw (rest := 0x2E#8 :: (fr ++ rest)) (by rintro b ⟨⟩; rfl)
    obtain ⟨htake', hdrop'⟩ := span_digits_append hfr hafter
    rw [pointText, if_pos rfl, List.cons_append]
    simp only [takeMant, htake, hdrop, htake', hdrop', hempty, Bool.false_eq_true, if_true, if_false]

theorem digits_takeWhile (t : List Byte) : Digits (t.takeWhile isDigit) :=
  all_isDigit_iff.mp (List.all_takeWhile)

/-- What `takeMant` accepts is a mantissa of the grammar and what follows it. -/
theorem exists_pointText_of_takeMant {t w fr rest : List Byte} (h : takeMant t = some (w, fr, rest)) :
    Digits w ∧ Digits fr ∧ (w ≠ [] ∨ fr ≠ []) ∧
      ∃ point, (point = false → fr = []) ∧ w ++ (pointText point fr ++ rest) = t := by
  have hsplit := List.takeWhile_append_dropWhile (p := isDigit) (l := t)
  have hw := digits_takeWhile t
  have hnil : Digits [] := nofun
  rw [takeMant] at h
  split at h
  · next hdrop =>
    rw [hdrop] at hsplit
    split at h
    · cases h
    · next hne =>
      cases h
      exact ⟨hw, hnil, .inl (by simpa using hne), false, fun _ => rfl, hsplit⟩
  · next b r hdrop =>
    rw [hdrop] at hsplit
    split at h
    · next hb =>
      subst hb
      dsimp only at h
      split at h
      · cases h
      · next hne =>
        cases h
        refine ⟨hw, digits_takeWhile r, ?_, true, nofun, ?_⟩
        · rw [Bool.and_eq_true, not_and_or] at hne
          simpa using hne
        · rw [pointText, if_pos rfl, List.cons_append, List.takeWhile_append_dropWhile, hsplit]
    · split at h
      · cases h
      · next hne =>
        cases h
        exact ⟨hw, hnil, .inl (by simpa using hne), false, fun _ => rfl, hsplit⟩

/-- The text of an exponent, and the power of ten that it names. -/
def expoText : Option (Byte × Option Bool × List Byte) → List Byte
  | none => []
  | some (letter, sg, ds) => letter :: (signText sg ++ ds)

def expoValue : Option (Byte × Option Bool × List Byte) → Int
  | none => 0
  | some (_, sg, ds) => if sg = some true then -(placeValue ds : Int) else (placeValue ds : Int)

/-- An exponent of the grammar. -/
def LegalExpo (e : Option (Byte × Option Bool × List Byte)) : Prop :=
  ∀ letter sg ds, e = some (letter, sg, ds) → (letter = 0x65#8 ∨ letter = 0x45#8) ∧ Digits ds ∧ ds ≠ []

theorem front_expoText {e : Option (Byte × Option Bool × List Byte)} (h : LegalExpo e) :
    Front (fun b => isDigit b = false ∧ b ≠ 0x2E#8) (expoText e) := by
  rcases e with _ | ⟨letter, sg, ds⟩
  · nofun
  · rintro b ⟨⟩
    obtain ⟨rfl | rfl, -, -⟩ := h letter sg ds rfl <;> decide

theorem parseExp_expoText {e : Option (Byte × Option Bool × List Byte)} (h : LegalExpo e) :
    parseExp (expoText e) = some (expoValue e) := by
  rcases e with _ | ⟨letter, sg, ds⟩
  · rfl
  · obtain ⟨hletter, hds, hne⟩ := h letter sg ds rfl
    have hsign := takeSign_signText_append sg (front_notSign_of_digits hds)
    have hdigits := all_isDigit_iff.mpr hds
    simp only [expoText, parseExp, hsign]
    simp [hletter, hdigits, hne, digitsValue_eq_placeValue, expoValue]

theorem exists_expoText_of_parseExp {t : List Byte} {x : Int} (h : parseExp t = some x) :
    ∃ e, LegalExpo e ∧ expoText e = t := by
  rcases t with _ | ⟨b, r⟩
  · exact ⟨none, nofun, rfl⟩
  · rw [parseExp, Option.ite_none_right_eq_some] at h
    obtain ⟨hletter, h⟩ := h
    rcases hsign : takeSign r with ⟨neg, ds⟩
    obtain ⟨sg, hr⟩ := exists_signText_of_takeSign hsign
    simp only [hsign, Option.ite_none_right_eq_some, Bool.and_eq_true, Bool.not_eq_true'] at h
    obtain ⟨⟨hne, hdigits⟩, -⟩ := h
    refine ⟨some (b, sg, ds), ?_, congrArg (b :: ·) hr⟩
    rintro _ _ _ ⟨⟩
    exact ⟨by simpa using hletter, all_isDigit_iff.mp hdigits, by simpa using hne⟩

/-! ### Whole float tokens (R142) -/

namespace Claims.FloatParts

theorem text_eq (p : FloatParts) :
    p.text = signText p.sign ++ (p.whole ++ (pointText p.point p.frac ++ expoText p.expo)) := by
  simp only [text, List.append_assoc]
  rfl

/-- The decimal number that the parts denote. -/
def decimal (p : FloatParts) : Decimal :=
  ⟨decide (p.sign = some true), p.mant, (p.whole ++ p.frac).length, p.power⟩

theorem front_notSign {p : FloatParts} (hp : p.Legal) :
    Front NotSign (p.whole ++ (pointText p.point p.frac ++ expoText p.expo)) := by
  obtain ⟨hwhole, -, hne, hpoint, -⟩ := hp
  rcases hw : p.whole with _ | ⟨b, w⟩
  · have hfrac : p.frac ≠ [] := by simpa [hw] using hne
    have htrue : p.point = true := by simpa using mt hpoint hfrac
    rw [htrue]
    rintro b ⟨⟩
    exact ⟨by decide, by decide⟩
  · rintro c ⟨⟩
    exact notSign_of_isDigit (isDigit_iff.mpr (hwhole b (by simp [hw])))

/-- A token of the grammar is read as the number that its parts denote. -/
theorem parseDecimal_text {p : FloatParts} (hp : p.Legal) : parseDecimal p.text = some p.decimal := by
  have hfront := front_notSign hp
  obtain ⟨hwhole, hfrac, hne, hpoint, hexpo⟩ := hp
  have hmant := takeMant_append hwhole hfrac hne hpoint (front_expoText hexpo)
  simp only [parseDecimal, text_eq, takeSign_signText_append p.sign hfront, hmant, parseExp_expoText hexpo]
  rw [digitsValue_eq_placeValue]
  rfl

/-- A string that is read as a number is a token of the grammar. -/
theorem exists_text_of_parseDecimal {t : Token} {x : Decimal} (h : parseDecimal t = some x) :
    ∃ p : FloatParts, p.Legal ∧ p.text = t := by
  rcases hsign : takeSign t with ⟨neg, body⟩
  simp only [parseDecimal, hsign] at h
  split at h
  · cases h
  · next w fr rest hmant =>
    split at h
    · cases h
    · next e hexp =>
      obtain ⟨sg, rfl⟩ := exists_signText_of_takeSign hsign
      obtain ⟨hw, hfr, hne, point, hpoint, rfl⟩ := exists_pointText_of_takeMant hmant
      obtain ⟨expo, hlegal, rfl⟩ := exists_expoText_of_parseExp hexp
      exact ⟨⟨sg, w, point, fr, expo⟩, ⟨hw, hfr, hne, hpoint, hlegal⟩, text_eq _⟩

end Claims.FloatParts

theorem parseFloat_isSome_iff {t : Token} : (parseFloat t).isSome = true ↔ ∃ p : FloatParts, p.Legal ∧ p.text = t := by
  rw [parseFloat, Option.isSome_map]
  constructor
  · intro h
    obtain ⟨x, hx⟩ := Option.isSome_iff_exists.mp h
    exact FloatParts.exists_text_of_parseDecimal hx
  · rintro ⟨p, hp, rfl⟩
    rw [FloatParts.parseDecimal_text hp]
    rfl

end Sys2Proof
end

/-! ## Rounding to nearest, ties to even (R143) -/

section
namespace Sys2Proof

open Sys2Proof.Claims

/-! ### Rounding to a natural number (R143) -/

section
variable {a b m : Nat}

theorem le_roundHalfEven (hb : 0 < b) (h : m * b ≤ a) : m ≤ roundHalfEven a b := by
  obtain ⟨hlow, -, -⟩ := roundHalfEven_spec a b hb
  have hlt : m * b < (roundHalfEven a b + 1) * b := by rw [Nat.succ_mul]; omega
  exact Nat.le_of_lt_succ (Nat.lt_of_mul_lt_mul_right hlt)

theorem roundHalfEven_le (hb : 0 < b) (h : a < m * b) : roundHalfEven a b ≤ m := by
  obtain ⟨-, hhigh, -⟩ := roundHalfEven_spec a b hb
  have hlt : roundHalfEven a b * b < (m + 1) * b := by rw [Nat.succ_mul]; omega
  exact Nat.le_of_lt_succ (Nat.lt_of_mul_lt_mul_right hlt)

/-- From half a unit below an even number on, no smaller one is nearest. -/
theorem le_roundHalfEven_of_half (hb : 0 < b) (hm : m % 2 = 0) (h : 2 * (m * b) ≤ 2 * a + b) : m ≤ roundHalfEven a b := by
  obtain ⟨hlow, -, heven⟩ := roundHalfEven_spec a b hb
  by_contra hlt
  have hle := Nat.mul_le_mul_right b (Nat.lt_of_not_ge hlt)
  rw [Nat.succ_mul] at hle
  have hsame : (roundHalfEven a b + 1) * b = m * b := by rw [Nat.succ_mul]; omega
  have := Nat.eq_of_mul_eq_mul_right hb hsame
  omega

theorem roundHalfEven_lt_of_half (hb : 0 < b) (h : 2 * a + b < 2 * (m * b)) : roundHalfEven a b < m := by
  obtain ⟨-, hhigh, -⟩ := roundHalfEven_spec a b hb
  have hlt : roundHalfEven a b * b < m * b := by omega
  exact Nat.lt_of_mul_lt_mul_right hlt

/-- Of two numbers below `a` the smaller one lies farther away. -/
theorem natAbs_sub_lt_of_lt_of_le {x y : Nat} (hxy : x < y) (hy : y ≤ a) :
    ((a : Int) - (y : Int)).natAbs < ((a : Int) - (x : Int)).natAbs := by
  omega

/-- No multiple of `b` lies nearer to `a`, and where another lies as near the rounded one is even. -/
theorem roundHalfEven_nearest (hb : 0 < b) (j : Nat) :
    ((a : Int) - ((roundHalfEven a b * b : Nat) : Int)).natAbs ≤ ((a : Int) - ((j * b : Nat) : Int)).natAbs ∧
      (((a : Int) - ((j * b : Nat) : Int)).natAbs = ((a : Int) - ((roundHalfEven a b * b : Nat) : Int)).natAbs →
        j ≠ roundHalfEven a b → roundHalfEven a b % 2 = 0) := by
  obtain ⟨hlow, hhigh, heven⟩ := roundHalfEven_spec a b hb
  have hsucc : ∀ {i k : Nat}, i < k → i * b + b ≤ k * b := fun h => Nat.succ_mul _ b ▸ Nat.mul_le_mul_right b h
  rcases Nat.lt_trichotomy j (roundHalfEven a b) with hlt | rfl | hgt
  · have := hsucc hlt
    omega
  · exact ⟨le_rfl, fun _ hne => absurd rfl hne⟩
  · have := hsucc hgt
    omega

end

/-! ### The magnitudes of patterns (10_state.md R25) -/

/-- In binade `t` the patterns count in steps of `2^t` units, the first pattern of the next binade too. -/
theorem binary32Units_ofNat {t k : Nat} (hk : k ≤ 2 ^ 24) (ht : t = 0 ∨ 2 ^ 23 ≤ k) (hq : t * 2 ^ 23 + k < 2 ^ 31) :
    binary32Units (BitVec.ofNat 32 (t * 2 ^ 23 + k)) = k * 2 ^ t := by
  have htoNat : (BitVec.ofNat 32 (t * 2 ^ 23 + k)).toNat = t * 2 ^ 23 + k := by
    rw [BitVec.toNat_ofNat]
    exact Nat.mod_eq_of_lt (hq.trans (by norm_num))
  rw [binary32Units, binary32Exponent, binary32Fraction, htoNat]
  rcases Nat.lt_or_ge k (2 ^ 23) with hsmall | hlarge
  · obtain rfl : t = 0 := by omega
    rw [if_pos (by omega)]
    omega
  · rcases Nat.lt_or_ge k (2 ^ 24) with hlt | hge
    · have hexp : (t * 2 ^ 23 + k) / 2 ^ 23 % 256 = t + 1 := by omega
      have hfrac : 2 ^ 23 + (t * 2 ^ 23 + k) % 2 ^ 23 = k := by omega
      rw [if_neg (by omega), hexp, hfrac, Nat.add_sub_cancel]
    · obtain rfl : k = 2 ^ 24 := by omega
      have hexp : (t * 2 ^ 23 + 2 ^ 24) / 2 ^ 23 % 256 - 1 = t + 1 := by omega
      have hfrac : 2 ^ 23 + (t * 2 ^ 23 + 2 ^ 24) % 2 ^ 23 = 2 ^ 23 := by omega
      rw [if_neg (by omega), hexp, hfrac]
      ring

/-- A pattern lies below binade `t`, or on the multiples of that binade's step: within the binade, only the pattern of
the multiple itself. -/
theorem binary32Units_cases {q : Nat} (hq : q < 2 ^ 31) (t : Nat) :
    (0 < t ∧ binary32Units (BitVec.ofNat 32 q) < 2 ^ 23 * 2 ^ t) ∨
      ∃ j, binary32Units (BitVec.ofNat 32 q) = j * 2 ^ t ∧ (j ≤ 2 ^ 24 → q = t * 2 ^ 23 + j) := by
  obtain ⟨u, k, hk, hu, rfl⟩ : ∃ u k, k < 2 ^ 24 ∧ (u = 0 ∨ 2 ^ 23 ≤ k) ∧ q = u * 2 ^ 23 + k :=
    ⟨q / 2 ^ 23 - 1, q - (q / 2 ^ 23 - 1) * 2 ^ 23, by omega, by omega, by omega⟩
  rw [binary32Units_ofNat hk.le hu hq]
  rcases Nat.lt_or_ge u t with hlt | hge
  · refine .inl ⟨by omega, ?_⟩
    calc k * 2 ^ u < 2 ^ 24 * 2 ^ u := Nat.mul_lt_mul_of_pos_right hk (Nat.two_pow_pos u)
      _ = 2 ^ 23 * 2 ^ (u + 1) := by ring
      _ ≤ 2 ^ 23 * 2 ^ t := Nat.mul_le_mul_left _ (Nat.pow_le_pow_right (by decide) hlt)
  · obtain ⟨c, rfl⟩ := Nat.exists_eq_add_of_le hge
    refine .inr ⟨k * 2 ^ c, by ring, fun hj => ?_⟩
    rcases c with _ | _ | c
    · omega
    · omega
    · have hpos := Nat.two_pow_pos c
      have hstep : 2 ^ 23 * 2 ^ (c + 1 + 1) ≤ k * 2 ^ (c + 1 + 1) := Nat.mul_le_mul_right _ (by omega)
      have hfour : 2 ^ 23 * 2 ^ (c + 1 + 1) = 2 ^ 25 * 2 ^ c := by ring
      omega

/-! ### Rounding to a pattern (R143) -/

/-- The binade of `n / d`, in the counting of `roundMag`. -/
def binade (n d : Nat) : Nat := Nat.log2 (n * 2 ^ 149 / d) - 23

/-- The step of a binade, in units of `2^-149 / d`. -/
def spacing (d t : Nat) : Nat := d * 2 ^ t

/-- `n / d` in the steps of its binade, rounded. -/
def roundedSteps (n d : Nat) : Nat := roundHalfEven (n * 2 ^ 149) (spacing d (binade n d))

theorem roundMag_eq (n d : Nat) : roundMag n d = min (binade n d * 2 ^ 23 + roundedSteps n d) infinityMag := rfl

theorem infinityMag_eq : infinityMag = 255 * 2 ^ 23 := rfl

theorem spacing_succ (d t : Nat) : spacing d (t + 1) = 2 * spacing d t := by
  rw [spacing, spacing]
  ring

theorem spacing_mono (d : Nat) {t u : Nat} (h : t ≤ u) : spacing d t ≤ spacing d u :=
  Nat.mul_le_mul_left d (Nat.pow_le_pow_right (by decide) h)

/-- Half a step below `2^128`, in the steps of the last finite binades. -/
theorem infinityThreshold_eq (d : Nat) : (2 ^ 25 - 1) * 2 ^ 252 * d = (2 ^ 25 - 1) * spacing d 252 := by
  rw [spacing]
  ring

theorem distance_eq {q j t : Nat} (h : binary32Units (BitVec.ofNat 32 q) = j * 2 ^ t) (n d : Nat) :
    distance n d q = (((n * 2 ^ 149 : Nat) : Int) - ((j * spacing d t : Nat) : Int)).natAbs := by
  rw [distance, h, spacing]
  congr 1
  push_cast
  ring

section
variable {d : Nat} (hd : 0 < d)
include hd

theorem spacing_pos (t : Nat) : 0 < spacing d t := Nat.mul_pos hd (Nat.two_pow_pos t)

variable {n : Nat}

theorem lt_of_binade : n * 2 ^ 149 < 2 ^ 24 * spacing d (binade n d) := by
  have hlog : Nat.log2 (n * 2 ^ 149 / d) < binade n d + 24 := by rw [binade]; omega
  have hquot : n * 2 ^ 149 / d < 2 ^ (binade n d + 24) :=
    lt_of_lt_of_le Nat.lt_log2_self (Nat.pow_le_pow_right (by decide) hlog)
  rw [Nat.div_lt_iff_lt_mul hd] at hquot
  exact hquot.trans_eq (by rw [spacing]; ring)

theorem le_of_binade : binade n d = 0 ∨ 2 ^ 23 * spacing d (binade n d) ≤ n * 2 ^ 149 := by
  rcases Nat.eq_zero_or_pos (binade n d) with hzero | hpos
  · exact .inl hzero
  · right
    have hlog : Nat.log2 (n * 2 ^ 149 / d) = binade n d + 23 := by rw [binade] at hpos ⊢; omega
    have hne : n * 2 ^ 149 / d ≠ 0 := by
      intro hzero
      rw [hzero] at hlog
      simp at hlog
    have hquot := hlog ▸ Nat.log2_self_le hne
    rw [Nat.le_div_iff_mul_le hd] at hquot
    exact le_of_eq_of_le (by rw [spacing]; ring) hquot

theorem roundedSteps_le : roundedSteps n d ≤ 2 ^ 24 := roundHalfEven_le (spacing_pos hd _) (lt_of_binade hd)

theorem le_roundedSteps : binade n d = 0 ∨ 2 ^ 23 ≤ roundedSteps n d :=
  (le_of_binade hd).imp_right (le_roundHalfEven (spacing_pos hd _))

/-- From half a step below `2^128` on the rounded magnitude is infinity. -/
theorem roundMag_of_large (h : (2 ^ 25 - 1) * 2 ^ 252 * d ≤ n * 2 ^ 149) : roundMag n d = infinityMag := by
  rw [infinityThreshold_eq] at h
  have hpos := spacing_pos hd 252
  have hlast : 253 ≤ binade n d := by
    by_contra hbelow
    have hstep := spacing_mono d (show binade n d ≤ 252 by omega)
    have hlt := lt_of_binade hd (n := n)
    omega
  have hsteps : 2 ^ 24 ≤ roundedSteps n d ∨ 254 ≤ binade n d := by
    refine hlast.eq_or_lt.imp_left fun hbinade => ?_
    rw [roundedSteps, ← hbinade, spacing_succ]
    exact le_roundHalfEven_of_half (by omega) rfl (by omega)
  have hk := le_roundedSteps hd (n := n)
  rw [roundMag_eq, infinityMag_eq]
  omega

/-- Below that it is a finite pattern. -/
theorem lt_infinityMag_of_small (h : n * 2 ^ 149 < (2 ^ 25 - 1) * 2 ^ 252 * d) :
    binade n d * 2 ^ 23 + roundedSteps n d < infinityMag := by
  rw [infinityThreshold_eq] at h
  have hpos := spacing_pos hd 252
  have hlast : binade n d ≤ 253 := by
    by_contra habove
    have hstep := spacing_mono d (show 252 + 1 + 1 ≤ binade n d by omega)
    rw [spacing_succ, spacing_succ] at hstep
    have hle := le_of_binade hd (n := n)
    omega
  have hsteps : roundedSteps n d < 2 ^ 24 ∨ binade n d ≤ 252 := by
    refine hlast.eq_or_lt.imp (fun hbinade => ?_) Nat.le_of_lt_succ
    rw [roundedSteps, hbinade, spacing_succ]
    exact roundHalfEven_lt_of_half (by omega) (by omega)
  have hk := roundedSteps_le hd (n := n)
  rw [infinityMag_eq]
  clear h hpos
  omega

/-- `roundMag` rounds to the nearest pattern, ties to even (44_text_decode.md R143). -/
theorem nearestEven_roundMag : NearestEven n d (roundMag n d) := by
  rw [NearestEven]
  split
  · next hlarge => exact roundMag_of_large hd hlarge
  · next hsmall =>
    have hfinite := lt_infinityMag_of_small hd (Nat.lt_of_not_ge hsmall)
    have hbound : infinityMag < 2 ^ 31 := by decide
    have hmag := distance_eq (binary32Units_ofNat (roundedSteps_le hd) (le_roundedSteps hd) (hfinite.trans hbound)) n d
    have hnear := roundHalfEven_nearest (a := n * 2 ^ 149) (spacing_pos hd (binade n d))
    rw [roundMag_eq, Nat.min_eq_left hfinite.le]
    refine ⟨hfinite, fun q hq => ?_⟩
    rcases binary32Units_cases (hq.trans hbound) (binade n d) with ⟨hpos, hbelow⟩ | ⟨j, hj, hown⟩
    · have hdist := distance_eq (q := q) (t := 0) (Nat.mul_one _).symm n d
      have hle := (le_of_binade hd (n := n)).resolve_left hpos.ne'
      have hfar : binary32Units (BitVec.ofNat 32 q) * spacing d 0 < 2 ^ 23 * spacing d (binade n d) := by
        have := Nat.mul_lt_mul_of_pos_right hbelow hd
        rw [spacing, spacing]
        linarith
      obtain ⟨hedge, -⟩ := hnear (2 ^ 23)
      have hlt : distance n d (binade n d * 2 ^ 23 + roundedSteps n d) < distance n d q := by
        rw [hmag, hdist]
        exact hedge.trans_lt (natAbs_sub_lt_of_lt_of_le hfar hle)
      exact ⟨hlt.le, fun htie => absurd htie hlt.ne'⟩
    · obtain ⟨hle, heven⟩ := hnear j
      rw [hmag, distance_eq hj]
      refine ⟨hle, fun htie hne => ?_⟩
      have hk : roundedSteps n d % 2 = 0 := heven htie fun hjk =>
        hne ((hown (hjk.trans_le (roundedSteps_le hd))).trans (by rw [hjk, roundedSteps]))
      omega

end

end Sys2Proof
end

/-! ## The value of a float token (R143) -/

section
namespace Sys2Proof

open Sys2Proof.Claims

theorem decimalMag_eq (m : Nat) (e : Int) : decimalMag m e = roundMag (m * 10 ^ e.toNat) (10 ^ (-e).toNat) := by
  cases e with
  | ofNat k =>
    have hneg : (-Int.ofNat k).toNat = 0 := by simp
    rw [hneg]
    rfl
  | negSucc k =>
    have hpos : (Int.negSucc k).toNat = 0 := rfl
    rw [hpos, Nat.pow_zero, Nat.mul_one]
    rfl

theorem roundMag_le (n d : Nat) : roundMag n d ≤ infinityMag := Nat.min_le_right _ _

theorem decimalMag_lt (m : Nat) (e : Int) : decimalMag m e < 2 ^ 31 := by
  rw [decimalMag_eq]
  exact (roundMag_le _ _).trans_lt (by decide)

/-- The pattern with a sign and a magnitude. -/
def signedPattern (neg : Bool) (mag : Nat) : Pattern := BitVec.ofNat 32 ((if neg then 2 ^ 31 else 0) + mag)

section
variable {mag : Nat} (h : mag < 2 ^ 31) (neg : Bool)
include h

theorem signedPattern_toNat : (signedPattern neg mag).toNat = (if neg then 2 ^ 31 else 0) + mag := by
  rw [signedPattern, BitVec.toNat_ofNat]
  refine Nat.mod_eq_of_lt ?_
  cases neg <;> simp <;> omega

theorem binary32Sign_signedPattern : binary32Sign (signedPattern neg mag) = neg := by
  have hmsb : binary32Sign (signedPattern neg mag) = decide (2 ^ 31 ≤ (signedPattern neg mag).toNat) :=
    (BitVec.msb_eq_getLsbD_last _).symm.trans (BitVec.msb_eq_decide _)
  rw [hmsb, signedPattern_toNat h]
  cases neg
  · simpa using h
  · simp

theorem signedPattern_toNat_mod : (signedPattern neg mag).toNat % 2 ^ 31 = mag := by
  rw [signedPattern_toNat h]
  cases neg <;> simpa using h

end

/-- The mantissa has no more digits than are counted, so that the limits on the power of ten change nothing. -/
theorem parseFloat_text {p : FloatParts} (hp : p.Legal) :
    parseFloat p.text = some (signedPattern (decide (p.sign = some true)) (decimalMag p.mant p.power)) := by
  have hdigits : Digits (p.whole ++ p.frac) := by
    obtain ⟨hwhole, hfrac, -⟩ := hp
    exact List.forall_mem_append.mpr ⟨hwhole, hfrac⟩
  have hmant : p.mant < 10 ^ (p.whole ++ p.frac).length := by
    rw [FloatParts.mant, ← digitsValue_eq_placeValue]
    exact digitsValue_lt (all_isDigit_iff.mpr hdigits)
  rw [parseFloat, FloatParts.parseDecimal_text hp, Option.map_some, FloatParts.decimal, decimalMag_clampExp _ hmant]
  rfl

/-- Settles O52: the magnitude is that of the exact ratio, rounded once, and the sign is put before it. -/
theorem floatTokensRoundToNearest : Obligations.FloatTokensRoundToNearest := by
  intro p hp
  have hmag := decimalMag_lt p.mant p.power
  refine ⟨_, parseFloat_text hp, binary32Sign_signedPattern hmag _, ?_⟩
  rw [signedPattern_toNat_mod hmag, decimalMag_eq]
  exact nearestEven_roundMag (Nat.pow_pos (by decide))

end Sys2Proof
end

/-! ## READ_TEXT: its loops, its errors, and UNPACK beside it -/

section
namespace Sys2Proof.Machine

open Sys2Proof.Claims

/-! ### The frame (R140) -/

/-- A frame with more bytes after it is no frame. -/
theorem decodeFrame_encode_append_cons {i : Instr} (hi : i.wf = true) (b : Byte) (bs : List Byte) :
    decodeFrame (encode i ++ b :: bs) = none := by
  rw [← Option.not_isSome_iff_eq_none, framesAreWellFormedByLength, frameLength_encode_append hi]
  simp

theorem decodeFrame_readText_of_tokenWalk_ne {n : Byte} {bs : List Byte} (h : tokenWalk n.toNat bs ≠ some bs.length) :
    decodeFrame (0x13#8 :: n :: bs) = none := by
  rw [decodeFrame_readText, decodeText, Option.map_eq_none_iff, ← Option.not_isSome_iff_eq_none, decodeTokens_isSome_iff]
  exact h

/-- Settles O54: the tokens' frame is the encoding of a well-formed READ_TEXT, which is read back, and nothing longer is. -/
theorem readTextFrames : Obligations.ReadTextFrames := by
  have hwf : ∀ ts : List Token, ts.length ≤ 255 → (∀ t ∈ ts, t.length ≤ 255) → Instr.wf (.readText ts) = true := by
    intro ts hcount hbound
    simpa [Instr.wf] using ⟨hcount, hbound⟩
  exact ⟨fun ts hcount hbound => encodedCommandsDecodeBack (.readText ts) (hwf ts hcount hbound),
    fun ts b bs hcount hbound => decodeFrame_encode_append_cons (hwf ts hcount hbound) b bs, rfl⟩

/-! ### The loops (R145), as one over the elements -/

/-- The elements of the fields of a list, in the order in which their tokens come: each a field and a number in it. -/
def places (fs : List Field) : List (Field × Nat) := fs.flatMap fun f => (List.range f.count).map (f, ·)

/-- The loops of R145 as one: token number `k` is the first of `ts`. -/
def readPlaces : List (Field × Nat) → Nat → List Token → Snapshot → Except CmdError Snapshot
  | [], _, _, r => .ok r
  | _ :: _, k, [], _ => .error (.malformedToken k)
  | (f, j) :: ps, k, t :: ts, r =>
    match tokenValue f t with
    | none => .error (.malformedToken k)
    | some v => readPlaces ps (k + 1) ts (r.setElem f j v)

/-- Values stored into the elements of a list. -/
def storePlaces : List (Field × Nat) → List Nat → Snapshot → Snapshot
  | (f, j) :: ps, v :: vs, r => storePlaces ps vs (r.setElem f j v)
  | _, _, r => r

theorem parseElem_eq_tokenValue (f : Field) (t : Token) : parseElem f t = tokenValue f t := by cases f <;> rfl

theorem places_cons (f : Field) (fs : List Field) :
    places (f :: fs) = (List.range' 0 f.count).map (f, ·) ++ places fs := by
  rw [places, List.flatMap_cons, List.range_eq_range', places]

/-- The statements' list of fields, one for each token, is that of the places. -/
theorem elementFields_eq_map_places (m : Byte) : elementFields m = (places (presentFields m)).map Prod.fst := by
  simp [elementFields, places, List.map_flatMap, Function.comp_def, List.map_const']

theorem readElems_bind_readPlaces (f : Field) (n j k : Nat) (ps : List (Field × Nat)) (ts : List Token) (r : Snapshot) :
    readPlaces ((List.range' j n).map (f, ·) ++ ps) k ts r =
      (readElems f n j k ts r).bind fun next => readPlaces ps next.1 next.2.1 next.2.2 := by
  induction n generalizing j k ts r with
  | zero => rfl
  | succ n ih =>
    rcases ts with _ | ⟨t, ts⟩
    · rfl
    · rw [List.range'_succ, List.map_cons, List.cons_append, readPlaces, readElems, parseElem_eq_tokenValue]
      rcases tokenValue f t with _ | v
      · rfl
      · exact ih (j + 1) (k + 1) ts (r.setElem f j v)

theorem readFields_eq_readPlaces (fs : List Field) (k : Nat) (ts : List Token) (r : Snapshot) :
    readFields fs k ts r = readPlaces (places fs) k ts r := by
  induction fs generalizing k ts r with
  | nil => rfl
  | cons f fs ih =>
    rw [places_cons, readElems_bind_readPlaces, readFields]
    rcases readElems f f.count 0 k ts r with e | ⟨k', ts', r'⟩
    · rfl
    · exact ih k' ts' r'

theorem exists_of_denoted_cons {f : Field} {fs : List Field} {ts : List Token} {vs : List Nat}
    (h : denoted (f :: fs) ts = some vs) :
    ∃ t us v ws, ts = t :: us ∧ tokenValue f t = some v ∧ denoted fs us = some ws ∧ vs = v :: ws := by
  rcases ts with _ | ⟨t, us⟩
  · cases h
  · rw [denoted] at h
    split at h
    · next v ws hv hws =>
      cases h
      exact ⟨t, us, v, ws, rfl, hv, hws, rfl⟩
    · cases h

/-- When each token denotes its element, the values are stored. -/
theorem readPlaces_of_denoted {ps : List (Field × Nat)} {ts : List Token} {vs : List Nat}
    (h : denoted (ps.map Prod.fst) ts = some vs) (k : Nat) (r : Snapshot) :
    readPlaces ps k ts r = .ok (storePlaces ps vs r) := by
  induction ps generalizing ts vs k r with
  | nil => rfl
  | cons p ps ih =>
    obtain ⟨t, us, v, ws, rfl, hv, hws, rfl⟩ := exists_of_denoted_cons h
    rw [readPlaces, hv]
    exact ih hws (k + 1) _

/-- The first token that is missing or fails its parser is the one reported. -/
theorem readPlaces_of_badToken {ps : List (Field × Nat)} {ts : List Token} {i : Nat} {f : Field}
    (hf : (ps.map Prod.fst)[i]? = some f) (hbefore : (denoted ((ps.map Prod.fst).take i) ts).isSome = true)
    (hbad : badToken f ts[i]?) (k : Nat) (r : Snapshot) :
    readPlaces ps k ts r = .error (.malformedToken (k + i)) := by
  induction ps generalizing ts i k r with
  | nil => cases hf
  | cons p ps ih =>
    cases i with
    | zero =>
      cases hf
      obtain hnone | ⟨t, ht, hfail⟩ := hbad
      · rcases ts with _ | ⟨t, ts⟩
        · rfl
        · cases hnone
      · obtain ⟨us, rfl⟩ := List.head?_eq_some_iff.mp (List.head?_eq_getElem?.trans ht)
        rw [readPlaces, hfail]
        rfl
    | succ i =>
      obtain ⟨vs, hvs⟩ := Option.isSome_iff_exists.mp hbefore
      obtain ⟨t, us, v, ws, rfl, hv, hws, -⟩ := exists_of_denoted_cons hvs
      rw [readPlaces, hv, ← Nat.add_assoc, Nat.add_right_comm]
      exact ih hf (Option.isSome_iff_exists.mpr ⟨ws, hws⟩) hbad (k + 1) _

/-- Tokens after as many as there are elements are not looked at. -/
theorem readPlaces_append {ps : List (Field × Nat)} {ts : List Token} (h : ps.length ≤ ts.length) (extra : List Token)
    (k : Nat) (r : Snapshot) : readPlaces ps k (ts ++ extra) r = readPlaces ps k ts r := by
  induction ps generalizing ts k r with
  | nil => rfl
  | cons p ps ih =>
    rcases ts with _ | ⟨t, ts⟩
    · cases h
    · rw [List.cons_append, readPlaces, readPlaces]
      rcases tokenValue p.1 t with _ | v
      · rfl
      · exact ih (Nat.le_of_succ_le_succ h) (k + 1) _

/-! ### How READ_TEXT ends (R145, R146) -/

theorem exec_readText_nil (s : State) : exec (.readText []) s = .next (answer s [0x03#8, 0#8]) := rfl

/-- The mask that a mask token of value `mv` gives (R144). -/
abbrev textMask (mv : Nat) : Byte := fieldBits (BitVec.ofNat 8 mv)

section
variable {t0 : Token} {ts : List Token}

theorem exec_readText_of_badMask (h : parseUInt t0 255 = none) (s : State) :
    exec (.readText (t0 :: ts)) s = .next (answer s [0x03#8, 0#8]) := by
  rw [exec_eq_runCommand]
  exact runCommand_of_error (e := .malformedToken 0) (by simp only [bodyOf, readTextBody, h])

variable {mv : Nat}

/-- With its mask token read, READ_TEXT is the loop over the elements of the mask. -/
theorem readTextBody_of_mask (h : parseUInt t0 255 = some mv) (s : State) :
    readTextBody (t0 :: ts) s =
      (readPlaces (places (presentFields (textMask mv))) 1 ts s.regs).map fun r =>
        ((s.setRegs r).setMask (textMask mv), [textMask mv]) := by
  simp only [readTextBody, h, readFields_eq_readPlaces]
  split <;> next hread => rw [hread]; rfl

theorem exec_readText_of_denoted (h : parseUInt t0 255 = some mv) {vs : List Nat}
    (hvs : denoted (elementFields (textMask mv)) ts = some vs) (s : State) :
    exec (.readText (t0 :: ts)) s =
      .next (answer
        { s with
          regs := storePlaces (places (presentFields (textMask mv))) vs s.regs
          mask := textMask mv }
        [0x00#8, textMask mv]) := by
  rw [elementFields_eq_map_places] at hvs
  rw [exec_eq_runCommand, bodyOf]
  exact runCommand_of_ok (by rw [readTextBody_of_mask h, readPlaces_of_denoted hvs]; rfl)

theorem exec_readText_of_badToken (h : parseUInt t0 255 = some mv) {k : Nat} {f : Field}
    (hf : (elementFields (textMask mv))[k]? = some f)
    (hbefore : (denoted ((elementFields (textMask mv)).take k) ts).isSome = true)
    (hbad : badToken f ts[k]?) (s : State) :
    exec (.readText (t0 :: ts)) s = .next (answer s [0x03#8, BitVec.ofNat 8 (k + 1)]) := by
  rw [elementFields_eq_map_places] at hf hbefore
  rw [exec_eq_runCommand, bodyOf, Nat.add_comm k]
  exact runCommand_of_error (e := .malformedToken (1 + k))
    (by rw [readTextBody_of_mask h, readPlaces_of_badToken hf hbefore hbad]; rfl)

end

/-- Settles O55: the loop over the elements of the mask ends before the extra tokens. -/
theorem readTextIgnoresExtraTokens : Obligations.ReadTextIgnoresExtraTokens := by
  intro t0 ts extra mv s hmask hlen
  change (elementFields (textMask mv)).length ≤ _ at hlen
  rw [elementFields_eq_map_places, List.length_map] at hlen
  simp only [exec_eq_runCommand, runCommand, bodyOf, readTextBody_of_mask hmask, readPlaces_append hlen]

/-! ### A token that is none, at its own position (R141, R142) -/

/-- Settles O50: the digits' value is the sum by places, and any other token is a bad one for the ref_diode. -/
theorem integerTokensAreDigits : Obligations.IntegerTokensAreDigits := by
  refine ⟨fun t max v => parseUInt_eq_some_iff, fun t s ht => ?_⟩
  have hmask : parseUInt (ascii "8") 255 = some 8 := by decide
  have hbad : tokenValue .diode t = none := parseUInt_eq_none_of_not ht
  exact exec_readText_of_badToken hmask (k := 0) (f := .diode) (by decide) rfl (.inr ⟨t, rfl, hbad⟩) s

/-- Settles O51: the parser splits a token into the parts of the grammar, and any other string is a bad token for the
temp_sensor. -/
theorem floatTokensAreTheGrammar : Obligations.FloatTokensAreTheGrammar := by
  refine ⟨fun t => parseFloat_isSome_iff, fun t s ht => ?_⟩
  have hmask : parseUInt (ascii "16") 255 = some 16 := by decide
  have hnone : parseFloat t = none := Option.not_isSome_iff_eq_none.mp (mt parseFloat_isSome_iff.mp ht)
  have hbad : tokenValue .temp t = none := congrArg (Option.map BitVec.toNat) hnone
  exact exec_readText_of_badToken hmask (k := 0) (f := .temp) (by decide) rfl (.inr ⟨t, rfl, hbad⟩) s

/-! ### The elements stored (R144) -/

theorem tokenValue_lt {f : Field} {t : Token} {v : Nat} (h : tokenValue f t = some v) : v < 256 ^ f.elemWidth := by
  have integer : ∀ {max}, parseUInt t max = some v → v ≤ max := by
    intro max h
    obtain ⟨-, -, -, hle⟩ := parseUInt_eq_some_iff.mp h
    exact hle
  have float : (parseFloat t).map BitVec.toNat = some v → v < 2 ^ 32 := by
    intro h
    obtain ⟨p, -, rfl⟩ := Option.map_eq_some_iff.mp h
    exact p.isLt
  cases f with
  | motor => exact Nat.lt_succ_of_le (integer h)
  | switch => exact Nat.lt_succ_of_le (integer h)
  | pot => exact Nat.lt_succ_of_le (integer h)
  | diode => exact Nat.lt_succ_of_le (integer h)
  | temp => exact float h
  | imu => exact float h

/-- Each token denotes a value within its element's width. -/
theorem forall₂_of_denoted {ps : List (Field × Nat)} {ts : List Token} {vs : List Nat}
    (h : denoted (ps.map Prod.fst) ts = some vs) : List.Forall₂ (fun v p => v < 256 ^ p.1.elemWidth) vs ps := by
  induction ps generalizing ts vs with
  | nil => cases h; exact .nil
  | cons p ps ih =>
    obtain ⟨t, us, v, ws, rfl, hv, hws, rfl⟩ := exists_of_denoted_cons h
    exact .cons (tokenValue_lt hv) (ih hws)

theorem storePlaces_append (f : Field) (n j : Nat) (ps : List (Field × Nat)) (vs : List Nat) (r : Snapshot) :
    storePlaces ((List.range' j n).map (f, ·) ++ ps) vs r =
      storePlaces ps (vs.drop n) (Snapshot.storeElems f j (vs.take n) r) := by
  induction n generalizing j vs r with
  | zero => rfl
  | succ n ih =>
    rcases vs with _ | ⟨v, vs⟩
    · cases ps <;> rfl
    · exact ih (j + 1) vs (r.setElem f j v)

/-- The places of a list are those of its first field, which come first, and those of the others. -/
theorem storePlaces_places_cons (f : Field) (fs : List Field) (vs : List Nat) (r : Snapshot) :
    storePlaces (places (f :: fs)) vs r =
      storePlaces (places fs) (vs.drop f.count) (Snapshot.storeElems f 0 (vs.take f.count) r) := by
  rw [places_cons, storePlaces_append]

/-- The elements that the fields of a list before `f` have, the sum in `elementIndex`. -/
def countBefore (fs : List Field) (f : Field) : Nat :=
  ((fs.filter fun g => decide (g.index < f.index)).map Field.count).sum

theorem countBefore_cons_of_lt {f g : Field} (h : g.index < f.index) (fs : List Field) :
    countBefore (g :: fs) f = g.count + countBefore fs f := by
  simp [countBefore, h]

/-- No field of a rising list stands before its first, so none of its elements do. -/
theorem countBefore_cons_self {f : Field} {fs : List Field} (h : ∀ g ∈ fs, f.index < g.index) :
    countBefore (f :: fs) f = 0 := by
  have hnone : ∀ g ∈ f :: fs, ¬ g.index < f.index :=
    List.forall_mem_cons.mpr ⟨Nat.lt_irrefl _, fun g hg => (h g hg).not_gt⟩
  rw [countBefore, List.filter_eq_nil_iff.mpr (by simpa using hnone)]
  rfl

/-- An element read after the elements of fields of rising number are stored: its own value where its field is one of
them. -/
theorem elem_storePlaces {fs : List Field} (hsorted : fs.Pairwise fun f g => f.index < g.index) {vs : List Nat}
    (hvs : List.Forall₂ (fun v p => v < 256 ^ p.1.elemWidth) vs (places fs)) (r : Snapshot) {f : Field} {j : Nat}
    (hj : j < f.count) :
    (storePlaces (places fs) vs r).elem f j =
      if f ∈ fs then vs[countBefore fs f + j]?.getD 0 else r.elem f j := by
  induction fs generalizing vs r with
  | nil => cases hvs; rfl
  | cons g fs ih =>
    obtain ⟨hg, hfs⟩ := List.pairwise_cons.mp hsorted
    rw [places_cons] at hvs
    have hown := List.forall₂_take_append _ _ _ hvs
    have hrest := List.forall₂_drop_append _ _ _ hvs
    rw [List.length_map, List.length_range'] at hown hrest
    have hcount : (vs.take g.count).length = g.count := by simpa using hown.length_eq
    rw [storePlaces_places_cons, ih hfs hrest, Snapshot.elem_storeElems_all hcount r hj]
    by_cases hmem : f ∈ fs
    · rw [if_pos hmem, if_pos (List.mem_cons_of_mem g hmem), countBefore_cons_of_lt (hg f hmem), List.getElem?_drop,
        Nat.add_assoc]
    · rw [if_neg hmem]
      by_cases hgf : g = f
      · subst hgf
        have hj' : j < (vs.take g.count).length := hcount.symm ▸ hj
        have hfit : (vs.take g.count)[j] < 256 ^ g.elemWidth := by simpa using hown.get hj' (by simpa using hj)
        rw [if_pos rfl, if_pos List.mem_cons_self, countBefore_cons_self hg, Nat.zero_add,
          ← List.getElem?_take_of_lt (l := vs) hj, List.getElem?_eq_getElem hj', Option.getD_some, Nat.mod_eq_of_lt hfit]
      · rw [if_neg hgf, if_neg (by simp [hmem, Ne.symm hgf])]

/-- Settles O53: READ_TEXT is the loop over the elements of its mask, which stores each token's value in its element or
ends at the first token that denotes none. -/
theorem readTextDecodesTokens : Obligations.ReadTextDecodesTokens := by
  refine ⟨fun t0 ts mv vs s hmask hvs => ⟨_, exec_readText_of_denoted hmask hvs s, fun f j hj => ?_⟩, exec_readText_nil,
    fun t0 ts s hmask => exec_readText_of_badMask hmask s,
    fun t0 ts mv k f s hmask hf hbefore hbad => exec_readText_of_badToken hmask hf hbefore hbad s,
    fun n bs hwalk => decodeFrame_readText_of_tokenWalk_ne hwalk, rfl⟩
  rw [elementFields_eq_map_places] at hvs
  have hmem : f ∈ presentFields (textMask mv) ↔ (BitVec.ofNat 8 mv).getLsbD f.index = true := by
    rw [mem_presentFields, getLsbD_fieldBits]
  exact (elem_storePlaces (presentFields_pairwise _) (forall₂_of_denoted hvs) s.regs hj).trans (if_congr hmem rfl rfl)

/-! ### UNPACK of the values denoted (R147) -/

theorem elementBytes_append (f : Field) (n : Nat) (fs : List Field) {vs : List Nat} (h : n ≤ vs.length) :
    elementBytes (List.replicate n f ++ fs) vs =
      ((vs.take n).flatMap fun v => leBytes v f.elemWidth) ++ elementBytes fs (vs.drop n) := by
  induction n generalizing vs with
  | zero => rfl
  | succ n ih =>
    rcases vs with _ | ⟨v, vs⟩
    · cases h
    · rw [List.take_succ_cons, List.flatMap_cons, List.append_assoc, List.drop_succ_cons,
        ← ih (Nat.le_of_succ_le_succ h)]
      rfl

/-- The bytes of a list of fields begin with those of its first field's elements. -/
theorem elementBytes_places_cons {f : Field} (fs : List Field) {vs : List Nat} (h : f.count ≤ vs.length) :
    elementBytes ((places (f :: fs)).map Prod.fst) vs =
      ((vs.take f.count).flatMap fun v => leBytes v f.elemWidth) ++
        elementBytes ((places fs).map Prod.fst) (vs.drop f.count) := by
  rw [← elementBytes_append f f.count _ h, places_cons, List.map_append, List.map_map]
  simp [Function.comp_def, List.map_const']

theorem flatMap_leBytes_take_length {f : Field} {vs : List Nat} (h : f.count ≤ vs.length) :
    ((vs.take f.count).flatMap fun v => leBytes v f.elemWidth).length = f.width := by
  rw [flatMap_leBytes_length, List.length_take_of_le h, Field.width]

theorem length_places_cons (f : Field) (fs : List Field) : (places (f :: fs)).length = f.count + (places fs).length := by
  simp [places_cons]

theorem elementBytes_places_length {fs : List Field} {vs : List Nat} (h : vs.length = (places fs).length) :
    (elementBytes ((places fs).map Prod.fst) vs).length = (fs.map Field.width).sum := by
  induction fs generalizing vs with
  | nil => rfl
  | cons f fs ih =>
    rw [length_places_cons] at h
    have hcount : f.count ≤ vs.length := by omega
    rw [elementBytes_places_cons fs hcount, List.length_append, flatMap_leBytes_take_length hcount,
      ih (by rw [List.length_drop]; omega), List.map_cons, List.sum_cons]

/-- Fields stored from the bytes of values have the values for their elements. -/
theorem unpackFields_elementBytes {fs : List Field} {vs : List Nat} (h : vs.length = (places fs).length)
    (r : Snapshot) :
    unpackFields fs (elementBytes ((places fs).map Prod.fst) vs) r = storePlaces (places fs) vs r := by
  induction fs generalizing vs r with
  | nil => rfl
  | cons f fs ih =>
    rw [length_places_cons] at h
    have hcount : f.count ≤ vs.length := by omega
    have hwidth := flatMap_leBytes_take_length hcount
    have hcut := leElems_flatMap_leBytes f.elemWidth (vs.take f.count) []
    rw [List.append_nil, List.length_take_of_le hcount] at hcut
    rw [elementBytes_places_cons fs hcount, unpackFields_cons, List.take_left' hwidth, List.drop_left' hwidth,
      Snapshot.storeField, hcut, Snapshot.storeElems_map_mod, storePlaces_places_cons,
      ih (by rw [List.length_drop]; omega)]

/-- Settles O56: the payload of the values is as long as UNPACK asks for, and UNPACK cuts the values out of it again. -/
theorem readTextEqualsUnpack : Obligations.ReadTextEqualsUnpack := by
  intro t0 ts mv vs s hmask hvs
  change exec _ s = exec (.unpack (textMask mv :: elementBytes (elementFields (textMask mv)) vs)) s
  have hread := exec_readText_of_denoted hmask hvs s
  change denoted (elementFields (textMask mv)) ts = _ at hvs
  rw [elementFields_eq_map_places] at hvs ⊢
  have hlength : vs.length = (places (presentFields (textMask mv))).length :=
    (forall₂_of_denoted hvs).length_eq
  have hfit : need (fieldBits (textMask mv)) ≤
      (elementBytes ((places (presentFields (textMask mv))).map Prod.fst) vs).length + 1 := by
    rw [fieldBits_fieldBits, ← req_eq_need, elementBytes_places_length hlength, req, Nat.add_comm]
  rw [hread, exec_unpack_of_fits hfit, fieldBits_fieldBits, unpackFields_elementBytes hlength]

end Sys2Proof.Machine
end

/-! # The accessor family (45_accessors.md): what GET_SENSORS and GET_PAYLOAD answer -/

section
namespace Sys2Proof.Machine

/-- The model's delivery of a response is the statements' one. -/
theorem State.respond_eq_answer (s : State) (f : Frame) : s.respond f = Claims.answer s f := rfl

/-- The statements' wire table, its mask bits dropped, is every field's bytes in the fixed field order. -/
theorem flatMap_snd_wire (r : Snapshot) :
    ((Claims.wire r).flatMap fun p => p.2) = Field.inOrder.flatMap r.fieldBytes := by
  rw [wire_eq_map_inOrder, List.flatMap_map]

/-- All six fields take 46 bytes, the full payload without its mask byte (30_encoding.md R64). -/
theorem flatMap_fieldBytes_inOrder_length (r : Snapshot) : (Field.inOrder.flatMap r.fieldBytes).length = 46 := by
  have hwidths : (Field.inOrder.flatMap r.fieldBytes).length = (Field.inOrder.map Field.width).sum := by
    simp only [List.length_flatMap, Snapshot.fieldBytes_length]
  exact hwidths.trans (by decide)

/-- Settles O57: the meaning lays out every field in order, which is what the wire table lists; no byte may follow the
opcode, by the frame's length. -/
theorem getSensorsReturnsEveryField : Obligations.GetSensorsReturnsEveryField := by
  refine ⟨fun s => ⟨?_, ?_⟩, rfl, decodeFrame_encode_append_cons (i := .getSensors) rfl⟩
  · rw [exec_getSensors, State.respond_eq_answer, okFrame, flatMap_snd_wire]
  · rw [List.length_cons, flatMap_snd_wire, flatMap_fieldBytes_inOrder_length]

/-- Settles O58: the meaning answers the buffer byte by byte; no byte may follow the opcode, by the frame's length. -/
theorem getPayloadReturnsTheBuffer : Obligations.GetPayloadReturnsTheBuffer := by
  refine ⟨fun s => ?_, rfl, decodeFrame_encode_append_cons (i := .getPayload) rfl⟩
  rw [exec_getPayload, State.respond_eq_answer, okFrame, State.pbufBytes]

end Sys2Proof.Machine
end

/-! # The exception family (60_exceptions.md): rejected requests, and how commands answer -/

section
namespace Sys2Proof.Machine

open Sys2Proof.Claims

/-! ## Requests that are no command (R206) -/

/-- A request whose length is not its implied one is no command. -/
theorem decodeFrame_of_frameLength_ne {f : Frame} (h : frameLength f ≠ some f.length) : decodeFrame f = none :=
  Option.not_isSome_iff_eq_none.mp (mt (framesAreWellFormedByLength f).mp h)

/-- A busy port whose request is no command answers IllegalCommand, and only the host's wait is over. -/
theorem step_of_rejected {s : State} {f : Frame} (hp : s.port = .busy f) (hh : noReset s) (hf : decodeFrame f = none) :
    step s = .next (answer (s.setHost (afterWait s.host)) [0x05#8, f.head?.getD 0xFF#8]) := by
  rw [step_of_busy hp hh, runRequest_of_none hf]
  rfl

/-- Settles O13: neither request decodes, the empty one by definition, the other because of its length. -/
theorem illegalCommandChangesNothing : Obligations.IllegalCommandChangesNothing :=
  ⟨fun _ hp hh => step_of_rejected hp hh rfl,
    fun _ _ _ hp hh hlen => step_of_rejected hp hh (decodeFrame_of_frameLength_ne hlen)⟩

/-! ## The status of a response (R200, R201) -/

/-- The status byte of an error's frame is one of the five (30_encoding.md R77). -/
theorem CmdError.exists_frame_eq_cons (e : CmdError) : ∃ code info, e.frame = code :: info ∧ code.toNat ≤ 5 := by
  cases e with
  | outOfCapacity need => exact ⟨_, _, rfl, by decide⟩
  | truncatedInput need supplied => exact ⟨_, _, rfl, by decide⟩
  | malformedToken index => exact ⟨_, _, rfl, by decide⟩
  | invalidFieldCount expected got => exact ⟨_, _, rfl, by decide⟩
  | illegalCommand op => exact ⟨_, _, rfl, by decide⟩

/-- Settles O19: the next state is the body's working copy with an OK response or the state before with an error's, and
neither the body nor the response touches the host's side. -/
theorem everyCommandAnswersOnce : Obligations.EveryCommandAnswersOnce := by
  intro i s
  obtain ⟨t, h⟩ := exec_total i s
  rcases exec_next_cases h with ⟨u, res, hb, rfl⟩ | ⟨e, rfl⟩
  · obtain ⟨-, hparams, hepoch, hhost, hresponses⟩ := bodyOf_ok_keeps hb
    exact ⟨_, 0x00#8, res, h, rfl, by rw [State.respond_responses, hresponses, okFrame], by decide, hhost, hparams, hepoch⟩
  · obtain ⟨code, info, hframe, hcode⟩ := e.exists_frame_eq_cons
    exact ⟨_, code, info, h, rfl, by rw [State.respond_responses, hframe], hcode, rfl, rfl, rfl⟩

/-- Settles O20: a command that ends well answers OK, and one that raises an error answers from the state before. -/
theorem errorsChangeNothing : Obligations.ErrorsChangeNothing := by
  intro i s t code info h hresponse hcode
  rcases exec_next_cases h with ⟨u, res, hb, rfl⟩ | ⟨e, rfl⟩
  · obtain ⟨-, -, -, -, hresponses⟩ := bodyOf_ok_keeps hb
    rw [State.respond_responses, hresponses, List.append_cancel_left_eq, okFrame] at hresponse
    cases hresponse
    exact absurd rfl hcode
  · rw [State.respond_responses, List.append_cancel_left_eq] at hresponse
    rw [State.respond_eq_answer, List.singleton_inj.mp hresponse]

/-! ## No step stops (R209) -/

/-- Settles O21: each way a step can go ends in a next state. -/
theorem noStepStops : Obligations.NoStepStops := step_total

end Sys2Proof.Machine
end

/-! # The reset and hazards family (70_reset_and_hazards.md): reset, waiting, and a PACK after an UNPACK -/

section
namespace Sys2Proof.Machine

/-! ## Reset (R240, R241) -/

/-- Settles O8: the step that takes reset is `resetBlock`, whatever the port is doing. -/
theorem resetAtAnyTime : Obligations.ResetAtAnyTime := fun s rest hh =>
  ⟨(s.setHost rest).resetBlock, step_of_reset hh, State.resetBlock_regs _, State.resetBlock_mask _,
    State.resetBlock_cursor _, State.resetBlock_port _, State.resetBlock_params _, State.resetBlock_responses _,
    State.resetBlock_host _, fun a => State.resetBlock_pbufByte _ a⟩

/-- The step that takes reset does not look at the port. -/
theorem step_withPort_of_reset {s : State} {rest : List HostEvent} (hh : s.host = .reset :: rest) (p : Port) :
    step { s with port := p } = .next (s.setHost rest).resetBlock :=
  step_of_reset hh

/-- Settles O9: with any port the step ends in the same reset state, which has the responses of the state before. -/
theorem resetDiscardsTheCommand : Obligations.ResetDiscardsTheCommand := by
  intro s f rest hh
  have hbusy := step_withPort_of_reset hh (.busy f)
  refine ⟨hbusy.trans (step_withPort_of_reset hh .idle).symm, fun t ht => ?_⟩
  cases hbusy.symm.trans ht
  exact ⟨State.resetBlock_responses _, State.resetBlock_port _⟩

/-! ## Waiting (R251) -/

theorem step_of_nothing_asked {s : State} (hp : s.port = .idle) (hh : s.host = []) : step s = .next s := by
  simp only [step, portStep, hh, hp]

theorem step_of_idle_await {s : State} {rest : List HostEvent} (hp : s.port = .idle)
    (hh : s.host = .awaitResponse :: rest) : step s = .next (s.setHost rest) := by
  simp only [step, portStep, hh, hp]

/-- Settles O14: an idle port takes the step that changes nothing, or the one that only ends the host's wait. -/
theorem idlePortWaits : Obligations.IdlePortWaits :=
  ⟨fun _ hp hh => step_of_nothing_asked hp hh, fun _ _ hp hh => step_of_idle_await hp hh⟩

/-! ## The bytes of unpacked fields (R249) -/

theorem Snapshot.fieldBytes_congr {r q : Snapshot} {f : Field} (h : ∀ j < f.count, r.elem f j = q.elem f j) :
    r.fieldBytes f = q.fieldBytes f :=
  List.flatMap_congr fun j hj => by rw [h j (List.mem_range.mp hj)]

/-- A field stored from as many bytes as it is wide reads back as those bytes. -/
theorem Snapshot.fieldBytes_storeField (r : Snapshot) {f : Field} {s : List Byte} (hs : s.length = f.width) :
    (r.storeField f s).fieldBytes f = s := by
  have helems : (List.range f.count).map ((r.storeField f s).elem f) = leElems f.elemWidth f.count s := by
    refine List.ext_getElem? fun j => ?_
    rcases Nat.lt_or_ge j f.count with hj | hj
    · rw [leElems_getElem? hj, List.getElem?_map, List.getElem?_range hj, Option.map_some,
        Snapshot.elem_storeField r f s hj, if_pos rfl]
    · rw [List.getElem?_eq_none (by simpa using hj), List.getElem?_eq_none (by simpa using hj)]
  calc (r.storeField f s).fieldBytes f
      = ((List.range f.count).map ((r.storeField f s).elem f)).flatMap fun v => leBytes v f.elemWidth :=
        by rw [List.flatMap_map, Snapshot.fieldBytes]
    _ = s := by rw [helems, flatMap_leBytes_leElems _ _ _ hs]

/-- Fields of rising number stored one after another read back as the bytes they were stored from. -/
theorem flatMap_fieldBytes_unpackFields {fs : List Field} (hsorted : fs.Pairwise fun f g => f.index < g.index)
    {bs : List Byte} (hfit : (fs.map Field.width).sum ≤ bs.length) (r : Snapshot) :
    fs.flatMap (unpackFields fs bs r).fieldBytes = bs.take (fs.map Field.width).sum := by
  induction fs generalizing bs r with
  | nil => rfl
  | cons f fs ih =>
    obtain ⟨hf, hfs⟩ := List.pairwise_cons.mp hsorted
    rw [List.map_cons, List.sum_cons] at hfit ⊢
    have hrest : (fs.map Field.width).sum ≤ (bs.drop f.width).length := by rw [List.length_drop]; omega
    have hnew : f ∉ fs := fun hmem => Nat.lt_irrefl _ (hf f hmem)
    have hfirst : (unpackFields (f :: fs) bs r).fieldBytes f = bs.take f.width := by
      rw [unpackFields_cons, Snapshot.fieldBytes_congr fun j hj => (elem_unpackFields hfs _ _ hj).trans (if_neg hnew)]
      exact r.fieldBytes_storeField (List.length_take_of_le (by omega))
    rw [List.flatMap_cons, hfirst, unpackFields_cons, ih hfs hrest, List.take_add]

/-- The payload of unpacked fields is the input they were unpacked from, up to the length that the mask implies. -/
theorem payload_unpackFields {m : Byte} {bs : List Byte} (hfit : req m ≤ bs.length + 1) (r : Snapshot) :
    payload m (unpackFields (presentFields m) bs r) = (m :: bs).take (req m) := by
  rw [req, Nat.add_comm] at hfit ⊢
  rw [payload, flatMap_fieldBytes_unpackFields (presentFields_pairwise m) (Nat.le_of_succ_le_succ hfit),
    List.take_succ_cons]

/-! ## PACK after UNPACK (R249, 42_unpack.md R125) -/

/-- The state after an UNPACK whose input is long enough. -/
def State.unpacked (s : State) (d0 : Byte) (bs : List Byte) : State :=
  Claims.answer
    { s with regs := unpackFields (presentFields (fieldBits d0)) bs s.regs, mask := fieldBits d0 }
    [0x00#8, fieldBits d0]

section
variable (s : State) (d0 : Byte) (bs : List Byte)

theorem State.unpacked_regs :
    (s.unpacked d0 bs).regs = unpackFields (presentFields (fieldBits d0)) bs s.regs := rfl
theorem State.unpacked_responses : (s.unpacked d0 bs).responses = s.responses ++ [[0x00#8, fieldBits d0]] := rfl
theorem State.unpacked_params : (s.unpacked d0 bs).params = s.params := rfl
theorem State.unpacked_pbufByte (a : Nat) : (s.unpacked d0 bs).pbufByte a = s.pbufByte a := rfl

/-- The fields that PACK will write are those that UNPACK decoded. -/
theorem State.fieldBits_unpacked_mask : fieldBits (s.unpacked d0 bs).mask = fieldBits d0 := fieldBits_fieldBits d0

end

/-- A byte read after UNPACK and PACK: inside the payload the input's, under the mask without its reserved bits. -/
theorem State.unpacked_packed_pbufByte {d0 : Byte} {bs : List Byte} (hfit : Claims.need (fieldBits d0) ≤ bs.length + 1)
    (s : State) (a : Nat) :
    (s.unpacked d0 bs).packed.pbufByte a =
      if a < Claims.need (fieldBits d0) then (fieldBits d0 :: bs)[a]?.getD 0 else s.pbufByte a := by
  rw [State.packed_pbufByte_eq, State.fieldBits_unpacked_mask, State.unpacked_regs, State.unpacked_pbufByte]
  rw [← req_eq_need] at hfit ⊢
  refine if_ctx_congr Iff.rfl (fun ha => ?_) fun _ => rfl
  rw [← payload_eq_payloadOf, payload_unpackFields hfit, List.getElem?_take_of_lt ha]

/-- Settles O46: UNPACK leaves its fields pending, and the payload that PACK makes of them is the input again. -/
theorem packOfUnpackReemitsThePayload : Obligations.PackOfUnpackReemitsThePayload := by
  intro d0 bs s hfit hcap
  have hpack : Claims.need (fieldBits (s.unpacked d0 bs).mask) ≤ (s.unpacked d0 bs).params.cap := by
    rwa [State.fieldBits_unpacked_mask, State.unpacked_params]
  have hbyte := State.unpacked_packed_pbufByte hfit s
  refine ⟨(s.unpacked d0 bs).packed, (execAll_pair (exec_unpack_of_fits hfit s)).trans (exec_pack_of_fits hpack),
    ?_, ?_, fun k hk hlt => ?_, fun k hk => ?_⟩
  · rw [State.packed_responses, State.unpacked_responses, State.fieldBits_unpacked_mask, req_eq_need, List.append_assoc]
    rfl
  · exact (hbyte 0).trans (if_pos (one_le_need _))
  · obtain ⟨k, rfl⟩ := Nat.exists_eq_add_of_le' hk
    exact (hbyte (k + 1)).trans (if_pos hlt)
  · exact (hbyte k).trans (if_neg hk.not_gt)

end Sys2Proof.Machine
end
